-- ==== Sys2Proof/Word.lean ====
section
/-! DEFINITION. The word types of the block: 16-bit words and codes, 8-bit low bytes and counts, 5-bit lanes. -/

namespace Sys2Proof

/-- A PackedWord or a Code: 16 bits, unsigned (spec/00_scope.md R5 `WORD_W`, R7). -/
abbrev Word := BitVec 16

/-- The low byte or the high byte of a word (R7); a repeat count (R5 `CNT_W`). -/
abbrev Byte := BitVec 8

/-- One lane of a PackedWord: a 5-bit intensity (R5 `LANE_W`). -/
abbrev Lane := BitVec 5

end Sys2Proof
end

