-- ==== Sys2Proof/Config.lean ====
section
/-! DEFINITION. What is fixed for the machine: the constants of spec/00_scope.md R5 and the parameter `INT_W` of R6.
The other open parameters (`HANDSHAKE`, `WORD_SERIALISATION`) have no rule that reads them and no Lean name. -/

namespace Sys2Proof

/-- `INT_W`, the width in bits of the `PIX_IN` payload: a parameter of the block, at least 5 (R6, decision D4). Well-formedness,
the decoder and the step relation take it as an argument (R37). -/
structure IntW where
  bits : Nat
  atLeastFive : 5 ≤ bits
  deriving DecidableEq, Repr

/-- The least `INT_W`, at which every token of `PIX_IN` is a legal intensity (R112). -/
def Config.intWLeast : IntW := ⟨5, Nat.le_refl 5⟩

/-- The default `INT_W` of R6, 8 bits: the width of the instance that the host runs as `step`. Log entry 1. -/
def Config.intW : IntW := ⟨8, by decide⟩

/-- `SENT_ZERO`, the low byte of the zero-run escape (R5). -/
def Config.sentZero : Byte := 0xFF#8
/-- `SENT_FULL`, the low byte of the full-run escape (R5). -/
def Config.sentFull : Byte := 0xFE#8
/-- `SENT_GEN`, the low byte of the generic-run escape (R5). -/
def Config.sentGen : Byte := 0xF0#8
/-- `V_ZERO`, the word of the zero run (R5). -/
def Config.vZero : Word := 0x0000#16
/-- `V_FULL`, the word of the full run (R5). -/
def Config.vFull : Word := 0xFFDF#16
/-- `CNT_MAX`, the longest run one escape encodes (R5). -/
def Config.cntMax : Byte := 255#8
/-- `SH0`, the shift of lane 0 (R5). -/
def Config.sh0 : Nat := 0
/-- `SH1`, the shift of lane 1 (R5). -/
def Config.sh1 : Nat := 6
/-- `SH2`, the shift of lane 2 (R5). -/
def Config.sh2 : Nat := 11
/-- The largest legal intensity (R5 `LANE_W`: range [0,31]). -/
def Config.intensityMax : Nat := 31

end Sys2Proof
end

