-- ==== Sys2Proof/Machine/Operands.lean ====
section
/-! DEFINITION. Operand forms: the fields of a word and of a code, the packing of three lanes, escape codes, the operand of
`PK.PUSH` (spec/00_scope.md R7, spec/30_encoding.md R80 to R87, spec/40_packer.md R111, R117). -/

namespace Sys2Proof.Machine

/-- `lo(c) = c[7:0]` (R7). -/
def lo (c : Word) : Byte := c.extractLsb' 0 8

/-- `hi(c) = c[15:8]`, the repeat count of an escape, used as is (R7, R87). -/
def hi (c : Word) : Byte := c.extractLsb' 8 8

/-- The three reserved low bytes 0xFF, 0xFE, 0xF0 (R82, R90). -/
def isSentinel (b : Byte) : Bool :=
  b == Config.sentZero || b == Config.sentFull || b == Config.sentGen

/-- The escape code `(L << 8) | s` of count `L` and sentinel byte `s` (R84, R85, R86). -/
def escape (L : Byte) (s : Byte) : Word :=
  (L.setWidth 16 <<< 8) ||| s.setWidth 16

/-- `packw(p0, p1, p2) = (p2 << 11) | (p1 << 6) | p0` (R111). -/
def packw (p0 p1 p2 : Lane) : Word :=
  (p2.setWidth 16 <<< Config.sh2) ||| (p1.setWidth 16 <<< Config.sh1) ||| (p0.setWidth 16 <<< Config.sh0)

/-- `pad = w[5]`, the reserved bit of a PackedWord (R81, R89). -/
def pad (w : Word) : Bool := w.getLsbD 5

/-- `unpack(w) = (w[4:0], w[10:6], w[15:11])`; it ignores bit 5 (R81, R117). -/
def unpack (w : Word) : Lane × Lane × Lane :=
  (w.extractLsb' 0 5, w.extractLsb' 6 5, w.extractLsb' 11 5)

/-- The operand check of `PK.PUSH v`: legal values are 0..31 (R95, R112). -/
def legalIntensity (v : Nat) : Bool := decide (v ≤ Config.intensityMax)

/-- `v[4:0]`, the lane a legal intensity fills (R113). -/
def laneOf (v : Nat) : Lane := BitVec.ofNat 5 v

end Sys2Proof.Machine
end

