-- ==== Sys2Proof/Syntax.lean ====
section
/-! DEFINITION. The instructions: one constructor per row of spec/opcode_table.json. Six rows are formats of 16 bits
(five codes that DC classifies, and the PackedWord); eleven are the host's operations (spec/30_encoding.md R82, R96). -/

namespace Sys2Proof

inductive Instr where
  /-- `ZRUN n`: zero-run escape code (R84, R163). -/
  | zrun (n : Byte)
  /-- `FRUN n`: full-run escape code (R85, R164). -/
  | frun (n : Byte)
  /-- `GRUN n`: the FIRST code of a generic run (R86, R165); its second code is a `grunOperand`. -/
  | grun (n : Byte)
  /-- `GRUN.OPERAND V`: the code DC takes as the value of a pending generic run (R93, R166). -/
  | grunOperand (v : Word)
  /-- `LIT v`: a literal code (R83, R162); its low byte is no sentinel byte. -/
  | lit (v : Word)
  /-- `PW p0 p1 p2`: the PackedWord of a triple (R80, R111): a data word that PK hands to CP (R54). -/
  | pw (p0 p1 p2 : Lane)
  /-- `PK.PUSH v`: data token on `PIX_IN`, an unsigned `INT_W`-bit number (R95, R112, R113). -/
  | pkPush (v : Nat)
  /-- `PK.END`: end token on `PIX_IN` (R114). -/
  | pkEnd
  /-- `CP.PUSH w`: data token on `WORD_IN` (R131 to R133). -/
  | cpPush (w : Word)
  /-- `CP.END`: end token on `WORD_IN` (R134). -/
  | cpEnd
  /-- `DC.PUSH c`: data token on `CODE_IN` (R161). -/
  | dcPush (c : Word)
  /-- `DC.END`: end token on `CODE_IN` (R167). -/
  | dcEnd
  /-- `RST.ENC b`: reset of the ENC path, latching `b` (R190). -/
  | rstEnc (b : BitVec 1)
  /-- `RST.DEC`: reset of the DEC path (R191). -/
  | rstDec
  /-- `RST.ALL b`: the hardware reset input, latching `b` (R192). -/
  | rstAll (b : BitVec 1)
  /-- `STATUS.RD` (R193). -/
  | statusRd
  /-- `CFG.RD` (R194). -/
  | cfgRd
  deriving DecidableEq, Repr

end Sys2Proof
end

