-- ==== Sys2Proof/WellFormed.lean ====
section
/-! DEFINITION. Which terms of `Instr` stand for something the hardware can be given: the operand of `PK.PUSH` fits the
`INT_W` bits of its port, and the value of a literal has no sentinel low byte. -/

namespace Sys2Proof

/-- The term is an instruction of a block whose `PIX_IN` has the width `W` (R57, R83, R95).
Every other operand is a bit vector of the width its field has, so nothing else is to be checked. -/
def Instr.wf (W : IntW) : Instr → Bool
  | .zrun _ => true
  | .frun _ => true
  | .grun _ => true
  | .grunOperand _ => true
  | .lit v => !Machine.isSentinel (Machine.lo v)
  | .pw _ _ _ => true
  | .pkPush v => decide (v < 2 ^ W.bits)
  | .pkEnd => true
  | .cpPush _ => true
  | .cpEnd => true
  | .dcPush _ => true
  | .dcEnd => true
  | .rstEnc _ => true
  | .rstDec => true
  | .rstAll _ => true
  | .statusRd => true
  | .cfgRd => true

end Sys2Proof
end

