-- ==== Sys2Proof/Decode.lean ====
section
/-! DEFINITION. The three kinds of bits the spec gives meaning to, the decoder (total, rejecting by name) and, after it, the
encoder. A host operation has no opcode field: which one happens is decided by which port or strobe fires (R96). A code
on `CODE_IN` is classified by its low byte, unless it is the operand of a pending generic run (R82, R93). A PackedWord is
a word with bit 5 clear (R80). -/

namespace Sys2Proof

/-- One firing of a port, a reset strobe or a read by the host (R50, R51, R96). The payload of `PIX_IN` is a number,
because the width of that port is the parameter `INT_W`. -/
inductive HostEvent where
  | pixData (v : Nat)
  | pixEnd
  | wordData (w : Word)
  | wordEnd
  | codeData (c : Word)
  | codeEnd
  | rstEnc (b : BitVec 1)
  | rstDec
  | rstAll (b : BitVec 1)
  | statusRd
  | cfgRd
  deriving DecidableEq, Repr

/-- The bits of an instruction, with what the hardware knows of them before it reads them. -/
inductive Encoding where
  /-- An event on a port or strobe of the block. -/
  | event (e : HostEvent)
  /-- The 16 bits of a code in front of DC, with `dc_wait` (R82: the operand of a pending run is not classified). -/
  | code (wait : Bool) (c : Word)
  /-- The 16 bits of a word in the PackedWord format (R80). -/
  | packed (w : Word)
  deriving DecidableEq, Repr

/-- Why bits are no instruction. -/
inductive DecodeError where
  /-- A `PIX_IN` payload with more than `INT_W` bits: no such token exists (R57). -/
  | pixelTooWide (v : Nat)
  /-- Bit 5 is set: not the format of a PackedWord (R80, R89). -/
  | padBitSet (w : Word)
  deriving DecidableEq, Repr

/-- Which operation an event is (R96, table of the eleven operations). -/
def decodeEvent (W : IntW) : HostEvent → Except DecodeError Instr
  | .pixData v => if v < 2 ^ W.bits then .ok (.pkPush v) else .error (.pixelTooWide v)
  | .pixEnd => .ok .pkEnd
  | .wordData w => .ok (.cpPush w)
  | .wordEnd => .ok .cpEnd
  | .codeData c => .ok (.dcPush c)
  | .codeEnd => .ok .dcEnd
  | .rstEnc b => .ok (.rstEnc b)
  | .rstDec => .ok .rstDec
  | .rstAll b => .ok (.rstAll b)
  | .statusRd => .ok .statusRd
  | .cfgRd => .ok .cfgRd

/-- How DC classifies a code: the operand of a pending generic run first, then by the low byte alone, in the order of
R82. There is no illegal code (R97). -/
def decodeCode (wait : Bool) (c : Word) : Instr :=
  if wait then .grunOperand c
  else if Machine.lo c = Config.sentZero then .zrun (Machine.hi c)
  else if Machine.lo c = Config.sentFull then .frun (Machine.hi c)
  else if Machine.lo c = Config.sentGen then .grun (Machine.hi c)
  else .lit c

/-- The PackedWord format: bits 15..11 `p2`, 10..6 `p1`, 5 zero, 4..0 `p0` (R80, R81). -/
def decodePacked (w : Word) : Except DecodeError Instr :=
  if Machine.pad w then .error (.padBitSet w)
  else .ok (.pw (Machine.unpack w).1 (Machine.unpack w).2.1 (Machine.unpack w).2.2)

/-- The decoder, for a block whose `PIX_IN` has the width `W`. -/
def decode (W : IntW) : Encoding → Except DecodeError Instr
  | .event e => decodeEvent W e
  | .code wait c => .ok (decodeCode wait c)
  | .packed w => decodePacked w

/-- The encoder: the code of a code row (R83 to R86), the word of a PackedWord (R80), the event of an operation (R96). -/
def encode : Instr → Encoding
  | .zrun n => .code false (Machine.escape n Config.sentZero)
  | .frun n => .code false (Machine.escape n Config.sentFull)
  | .grun n => .code false (Machine.escape n Config.sentGen)
  | .grunOperand v => .code true v
  | .lit v => .code false v
  | .pw p0 p1 p2 => .packed (Machine.packw p0 p1 p2)
  | .pkPush v => .event (.pixData v)
  | .pkEnd => .event .pixEnd
  | .cpPush w => .event (.wordData w)
  | .cpEnd => .event .wordEnd
  | .dcPush c => .event (.codeData c)
  | .dcEnd => .event .codeEnd
  | .rstEnc b => .event (.rstEnc b)
  | .rstDec => .event .rstDec
  | .rstAll b => .event (.rstAll b)
  | .statusRd => .event .statusRd
  | .cfgRd => .event .cfgRd

/-- The encoding is one the hardware can carry: a `PIX_IN` payload has `INT_W` bits, a PackedWord has bit 5 clear. -/
def Encoding.fits (W : IntW) : Encoding → Bool
  | .event (.pixData v) => decide (v < 2 ^ W.bits)
  | .event _ => true
  | .code _ _ => true
  | .packed w => !Machine.pad w

/-- The code held by an instruction word of the opcode table: `nbits` bits numbered from bit 0 of the (only) word of an
instruction, every bit above them 0. A row that the table gives no bits (the eleven operations) has no word. -/
def tableCode (nbits w : Nat) : Option Word :=
  if nbits = 0 then none else if nbits ≤ 16 then some (BitVec.ofNat 16 (w % 2 ^ nbits)) else none

/-- The instruction DC's classification reads from a code that arrives in escape position (`dc_wait == 0`, as after
reset), numbered as spec/opcode_table.json numbers its bits. -/
def decodeTableWord (nbits w : Nat) : Option Instr :=
  (tableCode nbits w).map (decodeCode false)

end Sys2Proof
end

