-- ==== Sys2Proof/Machine/State.lean ====
section
/-! DEFINITION. The state of the block as plain data, the reasons a step can stop, and the state after reset
(spec/10_state.md). -/

namespace Sys2Proof.Machine

/-- PK's triple under assembly: `pk_n` with the lanes that are meaningful at that count (R21 to R23). Holding the three
registers as one of three shapes makes `pk_n = 3` and the read of a stale lane impossible, as R23 asks. -/
inductive PkTriple where
  /-- `pk_n = 0`: no lane received. -/
  | empty
  /-- `pk_n = 1`: `pk_b0` received. -/
  | one (b0 : Lane)
  /-- `pk_n = 2`: `pk_b0` and `pk_b1` received. -/
  | two (b0 b1 : Lane)
  deriving DecidableEq, Repr

/-- A token of an output stream: `W(v)` or `EOS` (R8, R51). -/
inductive OutToken where
  | w (v : Word)
  | eos
  deriving DecidableEq, Repr

/-- What `STATUS.RD` and `CFG.RD` return to the host (R193, R194). -/
inductive HostRead where
  | status (bits : BitVec 3)
  | cfg (bit : BitVec 1)
  deriving DecidableEq, Repr

/-- The three faults of the block (R240). Each is taken by the operation that raises it: a flag is set, a path halts, and
the machine goes on (R243). They are no reason for a step to stop. -/
inductive PathFault where
  | invalidInputLength
  | invalidIntensity
  | truncatedStream
  deriving DecidableEq, Repr

/-- Reasons a step stops with a fault of the model. -/
inductive Fault where
  /-- `finalize` is asked to emit a run whose `cur` is `NONE` while `cnt` is not 0. Raised by `CP.PUSH`, `CP.END` and the
  operations that perform them (`PK.PUSH`, `PK.END`, `PW`), only in a state that breaks R26; R143 gives `finalize` no
  meaning there, and no run from reset reaches such a state. Safe: the model stops. Log entry 5. -/
  | finalizeNone
  deriving DecidableEq, Repr

/-- Reasons a step refuses. -/
inductive Refusal where
  /-- An instruction without a meaning. No arm of `exec` answers it. Safe. -/
  | notModelled (mnemonic : String)
  /-- Raised by the step (`stepAt`) alone: the event at the head of the inbox is one the ports cannot carry (a `PIX_IN` payload of more
  than `INT_W` bits, R57). Safe: no such token exists. Log entry 6. -/
  | notAToken (why : DecodeError)
  deriving DecidableEq, Repr

/-- The block's state. Rules of spec/10_state.md name each field. -/
structure State where
  /-- MODEL'S OWN, not the block's: the events the host has issued and the block has not yet taken, oldest first
  (R37: the host's choices). Log entry 2. -/
  inbox : List HostEvent
  /-- `pk_n`, `pk_b0`, `pk_b1` (R22, R23). -/
  pk : PkTriple
  /-- `cur`: the value of the pending run, `none` for `NONE` (R24). -/
  cur : Option Word
  /-- `cnt`: the length of the pending run (R25). -/
  cnt : Byte
  /-- `dc_wait` and `dc_cnt` as one optional count (R27, R28; folded as spec/93_implementation_defined.md U13 says). -/
  dcPend : Option Byte
  /-- `STATUS`: bit 0 `ERR_LEN`, bit 1 `ERR_INT`, bit 2 `ERR_TRUNC` (R31). -/
  status : BitVec 3
  /-- `CFG`: bit 0 `BYPASS` (R32). -/
  cfg : BitVec 1
  /-- Everything emitted on `CODE_OUT`, oldest first (R29, R52). -/
  codeOut : List OutToken
  /-- Everything emitted on `WORD_OUT`, oldest first (R29, R52). -/
  wordOut : List OutToken
  /-- MODEL'S OWN: what the host's reads have returned, oldest first (R193, R194). Log entry 3. -/
  reads : List HostRead
  deriving DecidableEq, Repr

/-- The state after `RST.ALL b` with nothing issued, emitted or read yet (R36, R271). -/
def State.resetWith (b : BitVec 1) : State where
  inbox := []
  pk := .empty
  cur := none
  cnt := 0#8
  dcPend := none
  status := 0
  cfg := b
  codeOut := []
  wordOut := []
  reads := []

/-- The machine right after reset. The bypass bit is sampled from outside at reset; the model takes 0.
DESIGN CHOICE, log entry 4. -/
def State.reset : State := .resetWith 0

end Sys2Proof.Machine
end

