-- ==== Sys2Proof/Machine/Flags.lean ====
section
/-! DEFINITION. The status register's bits, the conditions derived from them and from `CFG`, and the registers that are held
folded, under the names the spec gives them (spec/10_state.md R21 to R34). -/

namespace Sys2Proof.Machine

/-- The bit of `STATUS` a fault sets; it is also the fault's code (R31, R240). -/
def PathFault.bit : PathFault → Nat
  | .invalidInputLength => 0
  | .invalidIntensity => 1
  | .truncatedStream => 2

/-- `STATUS` with the flag of fault `f` set (R243). -/
def withFlag (f : PathFault) (status : BitVec 3) : BitVec 3 :=
  status ||| (1#3 <<< f.bit)

/-- `STATUS` after `RST.ENC`: `ERR_LEN` and `ERR_INT` cleared (R31, R190). -/
def clearEncFlags (status : BitVec 3) : BitVec 3 := status &&& 0b100#3

/-- `STATUS` after `RST.DEC`: `ERR_TRUNC` cleared (R31, R191). -/
def clearDecFlags (status : BitVec 3) : BitVec 3 := status &&& 0b011#3

/-- `STATUS.ERR_LEN`, bit 0 (R31). -/
def State.errLen (s : State) : Bool := s.status.getLsbD 0

/-- `STATUS.ERR_INT`, bit 1 (R31). -/
def State.errInt (s : State) : Bool := s.status.getLsbD 1

/-- `STATUS.ERR_TRUNC`, bit 2 (R31). -/
def State.errTrunc (s : State) : Bool := s.status.getLsbD 2

/-- `enc_halt = ERR_LEN | ERR_INT` (R33). -/
def State.encHalt (s : State) : Bool := s.errLen || s.errInt

/-- `dec_halt = ERR_TRUNC` (R33). -/
def State.decHalt (s : State) : Bool := s.errTrunc

/-- The wire `err` (R34). -/
def State.err (s : State) : Bool := s.errLen || s.errInt || s.errTrunc

/-- `CFG.BYPASS` (R32). -/
def State.bypass (s : State) : Bool := s.cfg.getLsbD 0

/-- `pk_n`: how many intensities of the current triple are held (R22). -/
def State.pkN (s : State) : Nat :=
  match s.pk with
  | .empty => 0
  | .one _ => 1
  | .two _ _ => 2

/-- `pk_b0`, absent while `pk_n = 0` (R23). -/
def State.pkB0 (s : State) : Option Lane :=
  match s.pk with
  | .empty => none
  | .one b0 => some b0
  | .two b0 _ => some b0

/-- `pk_b1`, absent unless `pk_n = 2` (R23). -/
def State.pkB1 (s : State) : Option Lane :=
  match s.pk with
  | .empty => none
  | .one _ => none
  | .two _ b1 => some b1

/-- `dc_wait` (R27). -/
def State.dcWait (s : State) : Bool := s.dcPend.isSome

/-- `dc_cnt`, absent while `dc_wait = 0` (R28). -/
def State.dcCnt (s : State) : Option Byte := s.dcPend

end Sys2Proof.Machine
end

