-- ==== Sys2Proof/Machine/Ops.lean ====
section
/-! DEFINITION. The shared operations: named updates of the state, emission on the output streams, taking a fault and
returning from it by reset, the halt of a path, the Compressor's run and the Decoder's code effects. -/

namespace Sys2Proof.Machine

/-- Two operations of one atomic step, the second on the state the first leaves (R54). -/
def andThen (o : Host.Outcome State Fault Refusal) (k : State → Host.Outcome State Fault Refusal) :
    Host.Outcome State Fault Refusal :=
  match o with
  | .next s => k s
  | .fault f => .fault f
  | .refused r => .refused r

/-! ### Named updates -/

/-- Write the triple under assembly (`pk_n`, `pk_b0`, `pk_b1`). -/
def State.setPk (t : PkTriple) (s : State) : State := { s with pk := t }

/-- Write the pending run (`cur` and `cnt` together, R26). -/
def State.setRun (cur : Option Word) (cnt : Byte) (s : State) : State := { s with cur := cur, cnt := cnt }

/-- Write `dc_wait` and `dc_cnt`. -/
def State.setDcPend (p : Option Byte) (s : State) : State := { s with dcPend := p }

/-- Write `STATUS`. -/
def State.setStatus (v : BitVec 3) (s : State) : State := { s with status := v }

/-- Latch `CFG.BYPASS` (R32). -/
def State.setCfg (b : BitVec 1) (s : State) : State := { s with cfg := b }

/-- `emit` on `CODE_OUT`: the tokens go after every token already there (R52). -/
def State.emitCode (ts : List OutToken) (s : State) : State := { s with codeOut := s.codeOut ++ ts }

/-- `emit` on `WORD_OUT` (R52). -/
def State.emitWord (ts : List OutToken) (s : State) : State := { s with wordOut := s.wordOut ++ ts }

/-- The host is given the answer to a read (R193, R194). -/
def State.answer (r : HostRead) (s : State) : State := { s with reads := s.reads ++ [r] }

/-- What is left of the host's events once some are taken. -/
def State.setInbox (es : List HostEvent) (s : State) : State := { s with inbox := es }

/-! ### Faults, halts and resets -/

/-- Taking a fault: its flag is set, nothing else changes, nothing is saved and control goes nowhere (R243). -/
def raise (f : PathFault) (s : State) : State := s.setStatus (withFlag f s.status)

/-- An operation of the ENC path: ignored while the path is halted (R244, R198). -/
def encOp (k : State → Host.Outcome State Fault Refusal) (s : State) : Host.Outcome State Fault Refusal :=
  if s.encHalt then .next s else k s

/-- An operation of the DEC path: ignored while the path is halted (R244, R198). -/
def decOp (k : State → State) (s : State) : Host.Outcome State Fault Refusal :=
  .next (if s.decHalt then s else k s)

/-- The reset of the ENC path, the one way out of its halt (R190, R250). -/
def resetEnc (b : BitVec 1) (s : State) : State :=
  (((s.setPk .empty).setRun none 0#8).setStatus (clearEncFlags s.status)).setCfg b

/-- The reset of the DEC path (R191, R250). -/
def resetDec (s : State) : State :=
  (s.setDcPend none).setStatus (clearDecFlags s.status)

/-! ### The Compressor's run -/

/-- `fin(V, L)`: the codes of a finalized run of value `V` and length `L` (R135 to R138, R140). Called with `L` in
[1,255] only (R143). -/
def finCodes (V : Word) (L : Byte) : List Word :=
  if L = 1#8 then [V]
  else if V = Config.vZero then [escape L Config.sentZero]
  else if V = Config.vFull then [escape L Config.sentFull]
  else [escape L Config.sentGen, V]

/-- The codes of the pending run, nothing if there is none (R133, R134, R140). -/
def finPending (cur : Option Word) (cnt : Byte) : List Word :=
  match cur with
  | some v => if cnt = 0#8 then [] else finCodes v cnt
  | none => []

/-- "if cnt != 0: finalize(cur, cnt)" (R133, R134). -/
def closeRun (s : State) : Host.Outcome State Fault Refusal :=
  if s.cnt = 0#8 then .next s
  else
    match s.cur with
    | some v => .next (s.emitCode ((finCodes v s.cnt).map .w))
    | none => .fault .finalizeNone

/-- A word extends the pending run: `cnt != 0 and w == cur and cnt < 255` (R132). -/
def extendsRun (w : Word) (cur : Option Word) (cnt : Byte) : Bool :=
  decide (cnt ≠ 0#8) && decide (cur = some w) && decide (cnt < Config.cntMax)

/-- What `CP.PUSH w` does on a path that is not halted (R131 to R133). -/
def takeWord (w : Word) (s : State) : Host.Outcome State Fault Refusal :=
  if s.bypass then .next (s.emitCode [.w w])
  else if extendsRun w s.cur s.cnt then .next (s.setRun s.cur (s.cnt + 1#8))
  else andThen (closeRun s) fun t => .next (t.setRun (some w) 1#8)

/-- What `CP.END` does on a path that is not halted (R134). -/
def endWords (s : State) : Host.Outcome State Fault Refusal :=
  andThen (closeRun s) fun t => .next ((t.setRun none 0#8).emitCode [.eos])

/-- The effect of `CP.PUSH w`, from the host or over the link from PK (R54, R133). -/
def compressorPush (w : Word) : State → Host.Outcome State Fault Refusal := encOp (takeWord w)

/-- The effect of `CP.END`, from the host or over the link from PK (R54, R134). -/
def compressorEnd : State → Host.Outcome State Fault Refusal := encOp endWords

/-! ### The Decoder's codes -/

/-- `emit_n(WORD_OUT, v, n)` (R8). -/
def emitCopies (v : Word) (n : Byte) (s : State) : State :=
  s.emitWord (List.replicate n.toNat (.w v))

/-- A code while a generic run is pending is its operand, whatever its bits; in escape position it has the effect `k`
(R161: the test of `dc_wait` comes first; R166). -/
def orOperand (c : Word) (k : State → State) (s : State) : State :=
  match s.dcPend with
  | some n => (emitCopies c n s).setDcPend none
  | none => k s

/-- The effect of a code in escape position, by its low byte (R161 to R165). -/
def escapePosition (c : Word) (s : State) : State :=
  if lo c = Config.sentZero then emitCopies Config.vZero (hi c) s
  else if lo c = Config.sentFull then emitCopies Config.vFull (hi c) s
  else if lo c = Config.sentGen then s.setDcPend (some (hi c))
  else s.emitWord [.w c]

end Sys2Proof.Machine
end

