-- ==== Sys2Proof/Machine/Compressor.lean ====
section
/-! DEFINITION. The meanings of the Compressor's operations `CP.PUSH` and `CP.END` (spec/41_compressor.md). -/

namespace Sys2Proof.Machine

/-- `CP.PUSH w` (R131, R132, R133). -/
def execCpPush (w : Word) (s : State) : Host.Outcome State Fault Refusal :=
  compressorPush w s

/-- `CP.END` (R134). -/
def execCpEnd (s : State) : Host.Outcome State Fault Refusal :=
  compressorEnd s

end Sys2Proof.Machine
end

