-- ==== Sys2Proof/Machine/Decoder.lean ====
section
/-! DEFINITION. The meanings of the Decoder's operations `DC.PUSH` and `DC.END` and of the five kinds of code DC reads
(spec/42_decoder.md). Each code row is the code in front of DC in ANY state: on a halted path it is ignored (R244); while a
generic run is pending its 16 bits are the operand (R93, R166); an operand row without its escape is a code of its own
(R88, R280). Log entry 8. -/

namespace Sys2Proof.Machine

/-- `ZRUN n` (R163). -/
def execZrun (n : Byte) (s : State) : Host.Outcome State Fault Refusal :=
  decOp (orOperand (escape n Config.sentZero) (emitCopies Config.vZero n)) s

/-- `FRUN n` (R164). -/
def execFrun (n : Byte) (s : State) : Host.Outcome State Fault Refusal :=
  decOp (orOperand (escape n Config.sentFull) (emitCopies Config.vFull n)) s

/-- `GRUN n`, first code (R165): the count is recorded, nothing is emitted. -/
def execGrun (n : Byte) (s : State) : Host.Outcome State Fault Refusal :=
  decOp (orOperand (escape n Config.sentGen) fun s => s.setDcPend (some n)) s

/-- `GRUN.OPERAND V` (R166). -/
def execGrunOperand (v : Word) (s : State) : Host.Outcome State Fault Refusal :=
  decOp (orOperand v (escapePosition v)) s

/-- `LIT v` (R162). -/
def execLit (v : Word) (s : State) : Host.Outcome State Fault Refusal :=
  decOp (orOperand v fun s => s.emitWord [.w v]) s

/-- `DC.PUSH c` (R161). -/
def execDcPush (c : Word) (s : State) : Host.Outcome State Fault Refusal :=
  decOp (orOperand c (escapePosition c)) s

/-- `DC.END` (R167). -/
def execDcEnd (s : State) : Host.Outcome State Fault Refusal :=
  decOp (fun s => if s.dcWait then raise .truncatedStream s else s.emitWord [.eos]) s

end Sys2Proof.Machine
end

