-- ==== Sys2Proof/Machine/Packer.lean ====
section
/-! DEFINITION. The meanings of the Packer's rows: `PK.PUSH`, `PK.END` and the PackedWord `PW` (spec/40_packer.md). -/

namespace Sys2Proof.Machine

/-- `PK.PUSH v` (R112, R113). The third intensity of a triple completes it, and the packed word goes to CP in the same
atomic step (R54). -/
def execPkPush (v : Nat) (s : State) : Host.Outcome State Fault Refusal :=
  encOp (fun s =>
    if legalIntensity v then
      match s.pk with
      | .empty => .next (s.setPk (.one (laneOf v)))
      | .one b0 => .next (s.setPk (.two b0 (laneOf v)))
      | .two b0 b1 => compressorPush (packw b0 b1 (laneOf v)) (s.setPk .empty)
    else .next (raise .invalidIntensity s)) s

/-- `PK.END` (R114): an unfinished triple is `InvalidInputLength`, else the effect of `CP.END` in the same atomic step. -/
def execPkEnd (s : State) : Host.Outcome State Fault Refusal :=
  encOp (fun s =>
    match s.pk with
    | .empty => compressorEnd s
    | .one _ => .next (raise .invalidInputLength s)
    | .two _ _ => .next (raise .invalidInputLength s)) s

/-- `PW p0 p1 p2`: the PackedWord of a triple, handed over the internal link to CP, where it has the effect of
`CP.PUSH(packw(p0, p1, p2))` (R54, R111). No host event decodes to it. DESIGN CHOICE, log entry 7. -/
def execPw (p0 p1 p2 : Lane) (s : State) : Host.Outcome State Fault Refusal :=
  compressorPush (packw p0 p1 p2) s

end Sys2Proof.Machine
end

