-- ==== Sys2Proof/Machine/System.lean ====
section
/-! DEFINITION. The meanings of the system operations: the three resets and the two reads (spec/43_system.md). -/

namespace Sys2Proof.Machine

/-- `RST.ENC b` (R190). -/
def execRstEnc (b : BitVec 1) (s : State) : Host.Outcome State Fault Refusal :=
  .next (resetEnc b s)

/-- `RST.DEC` (R191). -/
def execRstDec (s : State) : Host.Outcome State Fault Refusal :=
  .next (resetDec s)

/-- `RST.ALL b`: both path resets as one step (R192). -/
def execRstAll (b : BitVec 1) (s : State) : Host.Outcome State Fault Refusal :=
  .next (resetDec (resetEnc b s))

/-- `STATUS.RD` (R193): the three bits go to the host; no side effect in the block. -/
def execStatusRd (s : State) : Host.Outcome State Fault Refusal :=
  .next (s.answer (.status s.status))

/-- `CFG.RD` (R194). -/
def execCfgRd (s : State) : Host.Outcome State Fault Refusal :=
  .next (s.answer (.cfg s.cfg))

end Sys2Proof.Machine
end

