-- ==== Sys2Proof/Machine/Dispatch.lean ====
section
/-! DEFINITION. The one dispatch from an instruction to its meaning. -/

namespace Sys2Proof.Machine

def exec (i : Instr) (s : State) : Host.Outcome State Fault Refusal :=
  match i with
  | .zrun n => Sys2Proof.Machine.execZrun n s
  | .frun n => Sys2Proof.Machine.execFrun n s
  | .grun n => Sys2Proof.Machine.execGrun n s
  | .grunOperand v => Sys2Proof.Machine.execGrunOperand v s
  | .lit v => Sys2Proof.Machine.execLit v s
  | .pw p0 p1 p2 => Sys2Proof.Machine.execPw p0 p1 p2 s
  | .pkPush v => Sys2Proof.Machine.execPkPush v s
  | .pkEnd => Sys2Proof.Machine.execPkEnd s
  | .cpPush w => Sys2Proof.Machine.execCpPush w s
  | .cpEnd => Sys2Proof.Machine.execCpEnd s
  | .dcPush c => Sys2Proof.Machine.execDcPush c s
  | .dcEnd => Sys2Proof.Machine.execDcEnd s
  | .rstEnc b => Sys2Proof.Machine.execRstEnc b s
  | .rstDec => Sys2Proof.Machine.execRstDec s
  | .rstAll b => Sys2Proof.Machine.execRstAll b s
  | .statusRd => Sys2Proof.Machine.execStatusRd s
  | .cfgRd => Sys2Proof.Machine.execCfgRd s

end Sys2Proof.Machine
end

