-- ==== Sys2Proof/Machine/Fetch.lean ====
section
/-! DEFINITION. Where the next instruction comes from, the oldest event the host has issued, and the step relation with its
parameter `INT_W`. The block has no program counter (spec/10_state.md R30); every unit takes its next token in arrival order
(spec/20_memory.md R53, R59). -/

namespace Sys2Proof.Machine

/-- Take the oldest issued event, destructively: the event and the state with the rest of the inbox (R53). -/
def takeEvent (s : State) : Option (HostEvent × State) :=
  match s.inbox with
  | [] => none
  | e :: es => some (e, s.setInbox es)

/-- The operation an event is, on a block with this `INT_W`. -/
def eventInstr (W : IntW) (e : HostEvent) : Except DecodeError Instr := decode W (.event e)

/-- Issue an event that the block takes before all others. -/
def putEventFirst (e : HostEvent) (s : State) : State := s.setInbox (e :: s.inbox)

/-- One atomic operation of a block with this `INT_W`, which is a parameter of the step relation (R20, R37, R96): the block
takes the oldest event the host has issued and performs its operation. With no event issued nothing happens (log entry 2). -/
def stepAt (W : IntW) (s : State) : Host.Outcome State Fault Refusal :=
  match takeEvent s with
  | none => .next s
  | some (e, t) =>
    match eventInstr W e with
    | .ok i => exec i t
    | .error why => .refused (.notAToken why)

/-- `n` steps of a block with this `INT_W`, stopping at the first fault or refusal. -/
def runAt (W : IntW) : Nat → State → Host.Outcome State Fault Refusal
  | 0, s => .next s
  | n + 1, s => andThen (stepAt W s) (runAt W n)

end Sys2Proof.Machine
end

