-- ==== Sys2Proof/Machine/Step.lean ====
section
/-! DEFINITION. The step of the instance that the host runs, and the placing of a code as the next event. -/

namespace Sys2Proof.Machine

/-- One atomic operation of the block at the default `INT_W` (R6); the relation for every width is `stepAt`. -/
def step (s : State) : Host.Outcome State Fault Refusal := stepAt Config.intW s

/-- The code of an instruction word of the opcode table is placed on `CODE_IN` as the very next event; the word of a row
without bits places nothing. The host loads the block from outside: log entry 9. -/
def State.withFetchWord (s : State) (nbits w : Nat) : State :=
  match tableCode nbits w with
  | none => s
  | some c => putEventFirst (.codeData c) s

end Sys2Proof.Machine
end

