-- ==== Sys2Proof/Machine/Batch.lean ====
section
/-! DEFINITION. The batch reference functions of the spec over whole sequences: `pack` (R116), `unpack` over words (R117),
`compress` (R140) with its finalized runs (R221), `decode` (R168), `encode` (R195), and the items a code stream is read as
(R82, R88, R94). The streaming block is compared with them. -/

namespace Sys2Proof.Machine

/-! ### `pack` -/

/-- The words of the complete triples of a sequence, in triple order (R110, R116). -/
def packTriples : List Nat → List Word
  | p0 :: p1 :: p2 :: I => packw (laneOf p0) (laneOf p1) (laneOf p2) :: packTriples I
  | _ => []

/-- `pack(I)` (R116): an element above 31 anywhere wins over a bad length. -/
def pack (I : List Nat) : Except PathFault (List Word) :=
  if I.all legalIntensity then
    if I.length % 3 = 0 then .ok (packTriples I) else .error .invalidInputLength
  else .error .invalidIntensity

/-- The intensities of a word sequence, three a word, in order (R117, R223). -/
def unpackAll (W : List Word) : List Nat :=
  W.flatMap fun w => [(unpack w).1.toNat, (unpack w).2.1.toNat, (unpack w).2.2.toNat]

/-! ### `compress` -/

/-- The scan loop of `compress`, from a pending run (R140). -/
def compressFrom (cur : Option Word) (cnt : Byte) : List Word → List Word
  | [] => finPending cur cnt
  | w :: W =>
    if extendsRun w cur cnt then compressFrom cur (cnt + 1#8) W
    else finPending cur cnt ++ compressFrom (some w) 1#8 W

/-- `compress(Wd)` (R140). -/
def compress (W : List Word) : List Word := compressFrom none 0#8 W

/-- The pending run as a list of one finalized run, or of none. -/
def pendingRun (cur : Option Word) (cnt : Byte) : List (Word × Byte) :=
  match cur with
  | some v => if cnt = 0#8 then [] else [(v, cnt)]
  | none => []

/-- The finalized runs of the scan, from a pending run. -/
def runsFrom (cur : Option Word) (cnt : Byte) : List Word → List (Word × Byte)
  | [] => pendingRun cur cnt
  | w :: W =>
    if extendsRun w cur cnt then runsFrom cur (cnt + 1#8) W
    else pendingRun cur cnt ++ runsFrom (some w) 1#8 W

/-- The finalized runs `(V1,L1), (V2,L2), ...` of a word sequence, in order (R221). -/
def runs (W : List Word) : List (Word × Byte) := runsFrom none 0#8 W

/-- The domain of round trip: every word has a non-sentinel low byte (R210). -/
def roundTripDomain (W : List Word) : Prop := ∀ w ∈ W, isSentinel (lo w) = false

/-! ### `decode` -/

/-- `decode(S)` (R168). -/
def decodeStream : List Word → Except PathFault (List Word)
  | [] => .ok []
  | c :: S =>
    if lo c = Config.sentZero then (decodeStream S).map (List.replicate (hi c).toNat Config.vZero ++ ·)
    else if lo c = Config.sentFull then (decodeStream S).map (List.replicate (hi c).toNat Config.vFull ++ ·)
    else if lo c = Config.sentGen then
      match S with
      | [] => .error .truncatedStream
      | v :: S => (decodeStream S).map (List.replicate (hi c).toNat v ++ ·)
    else (decodeStream S).map ([c] ++ ·)

/-- `decode_literal`: the identity on word sequences (R196, R219). -/
def decodeLiteral (W : List Word) : List Word := W

/-! ### `encode` -/

/-- `encode(b, I)`: `pack(I)` in bypass, else `compress(pack(I))`, failing when `pack(I)` fails (R195). -/
def encodeSequence (b : BitVec 1) (I : List Nat) : Except PathFault (List Word) :=
  (pack I).map fun W => if b.getLsbD 0 then W else compress W

/-! ### Items of a code stream -/

/-- One item of a code stream: a literal, a one-code run or a two-code run (R82, R88). -/
inductive Item where
  | lit (v : Word)
  | zrun (n : Byte)
  | frun (n : Byte)
  | grun (n : Byte) (v : Word)
  deriving DecidableEq, Repr

/-- The codes of an item (R83 to R86). -/
def Item.codes : Item → List Word
  | .lit v => [v]
  | .zrun n => [escape n Config.sentZero]
  | .frun n => [escape n Config.sentFull]
  | .grun n v => [escape n Config.sentGen, v]

/-- The word an item stands for. -/
def Item.value : Item → Word
  | .lit v => v
  | .zrun _ => Config.vZero
  | .frun _ => Config.vFull
  | .grun _ v => v

/-- How many words an item stands for (R87: used as is). -/
def Item.count : Item → Nat
  | .lit _ => 1
  | .zrun n => n.toNat
  | .frun n => n.toNat
  | .grun n _ => n.toNat

/-- The words an item decodes to (R162 to R166). -/
def Item.expand (i : Item) : List Word := List.replicate i.count i.value

/-- The item is one that `compress` can emit on the round-trip domain (R94). -/
def Item.canonical : Item → Bool
  | .lit v => !isSentinel (lo v)
  | .zrun n => decide (2 ≤ n.toNat)
  | .frun n => decide (2 ≤ n.toNat)
  | .grun n v => decide (2 ≤ n.toNat) && decide (v ≠ Config.vZero) && decide (v ≠ Config.vFull) && !isSentinel (lo v)

/-- A canonical stream of items: each item canonical, and two successive items of one value only if the first has count
255 (R94, R221). -/
def canonicalItems : List Item → Bool
  | [] => true
  | [i] => i.canonical
  | i :: j :: rest => i.canonical && (decide (i.value ≠ j.value) || decide (i.count = 255)) && canonicalItems (j :: rest)

/-- Reading a code stream as items from its first code: two codes if the low byte is 0xF0, else one (R88). -/
def itemise : List Word → Except PathFault (List Item)
  | [] => .ok []
  | c :: S =>
    if lo c = Config.sentZero then (itemise S).map (.zrun (hi c) :: ·)
    else if lo c = Config.sentFull then (itemise S).map (.frun (hi c) :: ·)
    else if lo c = Config.sentGen then
      match S with
      | [] => .error .truncatedStream
      | v :: S => (itemise S).map (.grun (hi c) v :: ·)
    else (itemise S).map (.lit c :: ·)

end Sys2Proof.Machine
end

