-- ==== Sys2Proof/Machine/Run.lean ====
section
/-! DEFINITION. Sequences of operations: performing them in the order they are issued, which path each belongs to, what of
the state belongs to a path, the stream positions that spec/10_state.md R30 defines for stating laws, and the runs of a path
with their results (spec/43_system.md R199). -/

namespace Sys2Proof

namespace Machine

/-- Perform operations one after another, stopping at the first fault or refusal (R20, R59). -/
def execAll : List Instr → State → Host.Outcome State Fault Refusal
  | [], s => .next s
  | i :: is, s => andThen (exec i s) (execAll is)

/-- A ghost quantity carried along a sequence of operations: `f g s i t` is its value after operation `i` has led from `s` to
`t`, if it was `g` before. It is no state: no operation reads it. -/
def ghostAll {γ : Type} (f : γ → State → Instr → State → γ) : List Instr → State → γ → γ
  | [], _, g => g
  | i :: is, s, g =>
    match exec i s with
    | .next t => ghostAll f is t (f g s i t)
    | .fault _ => g
    | .refused _ => g

end Machine

/-- The operation acts on the ENC path (R20, table of R96; a PackedWord moves on its link, R54). -/
def Instr.onEnc : Instr → Bool
  | .zrun _ => false
  | .frun _ => false
  | .grun _ => false
  | .grunOperand _ => false
  | .lit _ => false
  | .pw _ _ _ => true
  | .pkPush _ => true
  | .pkEnd => true
  | .cpPush _ => true
  | .cpEnd => true
  | .dcPush _ => false
  | .dcEnd => false
  | .rstEnc _ => true
  | .rstDec => false
  | .rstAll _ => true
  | .statusRd => false
  | .cfgRd => false

/-- The operation acts on the DEC path (R20, table of R96). -/
def Instr.onDec : Instr → Bool
  | .zrun _ => true
  | .frun _ => true
  | .grun _ => true
  | .grunOperand _ => true
  | .lit _ => true
  | .pw _ _ _ => false
  | .pkPush _ => false
  | .pkEnd => false
  | .cpPush _ => false
  | .cpEnd => false
  | .dcPush _ => true
  | .dcEnd => true
  | .rstEnc _ => false
  | .rstDec => true
  | .rstAll _ => true
  | .statusRd => false
  | .cfgRd => false

/-- The operation is a reset. -/
def Instr.isReset : Instr → Bool
  | .zrun _ => false
  | .frun _ => false
  | .grun _ => false
  | .grunOperand _ => false
  | .lit _ => false
  | .pw _ _ _ => false
  | .pkPush _ => false
  | .pkEnd => false
  | .cpPush _ => false
  | .cpEnd => false
  | .dcPush _ => false
  | .dcEnd => false
  | .rstEnc _ => true
  | .rstDec => true
  | .rstAll _ => true
  | .statusRd => false
  | .cfgRd => false

namespace Machine

/-- What of the state belongs to the ENC path: all that its operations read or write (R20). -/
structure EncView where
  pk : PkTriple
  cur : Option Word
  cnt : Byte
  errLen : Bool
  errInt : Bool
  cfg : BitVec 1
  codeOut : List OutToken
  deriving DecidableEq, Repr

/-- What of the state belongs to the DEC path (R20). -/
structure DecView where
  dcPend : Option Byte
  errTrunc : Bool
  wordOut : List OutToken
  deriving DecidableEq, Repr

/-- The ENC path's part of a state. -/
def State.encView (s : State) : EncView where
  pk := s.pk
  cur := s.cur
  cnt := s.cnt
  errLen := s.errLen
  errInt := s.errInt
  cfg := s.cfg
  codeOut := s.codeOut

/-- The DEC path's part of a state. -/
def State.decView (s : State) : DecView where
  dcPend := s.dcPend
  errTrunc := s.errTrunc
  wordOut := s.wordOut

/-- Stream positions: how many data tokens each unit has consumed since its last reset or END (R30). They are ghost
quantities, computed along the operations and held in no register. Log entry 15. -/
structure Positions where
  pk : Nat
  cp : Nat
  dc : Nat
  deriving DecidableEq, Repr

/-- `PK.PUSH v` hands a word to CP: the path is not halted, the intensity is legal and completes the triple (R54, R113). -/
def linkFires (s : State) (v : Nat) : Bool := !s.encHalt && legalIntensity v && decide (s.pkN = 2)

/-- `PK.END` performs the effect of `CP.END`: the path is not halted and no triple is unfinished (R54, R114). -/
def linkEnds (s : State) : Bool := !s.encHalt && decide (s.pkN = 0)

/-- The positions after an operation performed in state `s`. Every PUSH of the host consumes one token of its port and every
END closes its port's sequence, on a halted path and where it faults too (R53, R243); over the link CP consumes a token or an
end only when PK passes one on (R54). -/
def Positions.after (p : Positions) (s : State) : Instr → Positions
  | .zrun _ => { p with dc := p.dc + 1 }
  | .frun _ => { p with dc := p.dc + 1 }
  | .grun _ => { p with dc := p.dc + 1 }
  | .grunOperand _ => { p with dc := p.dc + 1 }
  | .lit _ => { p with dc := p.dc + 1 }
  | .pw _ _ _ => { p with cp := if s.encHalt then p.cp else p.cp + 1 }
  | .pkPush v => { p with pk := p.pk + 1, cp := if linkFires s v then p.cp + 1 else p.cp }
  | .pkEnd => { p with pk := 0, cp := if linkEnds s then 0 else p.cp }
  | .cpPush _ => { p with cp := p.cp + 1 }
  | .cpEnd => { p with cp := 0 }
  | .dcPush _ => { p with dc := p.dc + 1 }
  | .dcEnd => { p with dc := 0 }
  | .rstEnc _ => { p with pk := 0, cp := 0 }
  | .rstDec => { p with dc := 0 }
  | .rstAll _ => { pk := 0, cp := 0, dc := 0 }
  | .statusRd => p
  | .cfgRd => p

/-- The positions after a sequence of operations performed from `s`. -/
def Positions.afterAll (p : Positions) (s : State) (is : List Instr) : Positions :=
  ghostAll (fun p s i _ => p.after s i) is s p

/-! ### Runs of a path and their results -/

/-- What an operation is to the runs of one path (R199): a reset or the first operation after a successful END begins a run,
PUSH operations make it up, an END ends it. -/
inductive RunRole where
  | reset
  | push
  | finish
  | other
  deriving DecidableEq, Repr

/-- The role of an operation in the runs of the ENC path. -/
def encRole : Instr → RunRole
  | .zrun _ => .other
  | .frun _ => .other
  | .grun _ => .other
  | .grunOperand _ => .other
  | .lit _ => .other
  | .pw _ _ _ => .push
  | .pkPush _ => .push
  | .pkEnd => .finish
  | .cpPush _ => .push
  | .cpEnd => .finish
  | .dcPush _ => .other
  | .dcEnd => .other
  | .rstEnc _ => .reset
  | .rstDec => .other
  | .rstAll _ => .reset
  | .statusRd => .other
  | .cfgRd => .other

/-- The role of an operation in the runs of the DEC path. -/
def decRole : Instr → RunRole
  | .zrun _ => .push
  | .frun _ => .push
  | .grun _ => .push
  | .grunOperand _ => .push
  | .lit _ => .push
  | .pw _ _ _ => .other
  | .pkPush _ => .other
  | .pkEnd => .other
  | .cpPush _ => .other
  | .cpEnd => .other
  | .dcPush _ => .push
  | .dcEnd => .finish
  | .rstEnc _ => .other
  | .rstDec => .reset
  | .rstAll _ => .reset
  | .statusRd => .other
  | .cfgRd => .other

/-- The latest run of a path: how many tokens its output stream held when the run began, and whether its END has succeeded.
A ghost quantity, held in no register. Log entry 17. -/
structure RunTrack where
  start : Nat
  ended : Bool
  deriving DecidableEq, Repr

/-- A run that begins with the stream as it is. -/
def RunTrack.begin (stream : List OutToken) : RunTrack := ⟨stream.length, false⟩

/-- The run an operation belongs to: a new one if the one before has ended, whose END left the reset state (R197, R199). -/
def RunTrack.current (r : RunTrack) (before : List OutToken) : RunTrack :=
  if r.ended then .begin before else r

/-- The latest run after an operation of role `role`, which found the stream `before` and left the stream `after` and the
path halted or not. An END ends the run when it leaves no flag of the path set, since then it has emitted `EOS`. -/
def RunTrack.next (r : RunTrack) (role : RunRole) (before after : List OutToken) (halted : Bool) : RunTrack :=
  match role with
  | .reset => .begin after
  | .push => r.current before
  | .finish => { r.current before with ended := !halted }
  | .other => r

/-- How the latest run of a path stands (R199, U18): not ended; ended well, with its result; ended badly, with none. -/
inductive RunStatus where
  | notEnded
  | endedWell (result : List Word)
  | endedBadly
  deriving DecidableEq, Repr

/-- The payloads of the data tokens of a stretch of a stream. -/
def payloads : List OutToken → List Word
  | [] => []
  | .w v :: ts => v :: payloads ts
  | .eos :: ts => payloads ts

/-- The complete sequences of an output stream that follows the payloads `held`: the payloads before each `EOS`, after the
`EOS` before it, oldest first. -/
def sequencesFrom (held : List Word) : List OutToken → List (List Word)
  | [] => []
  | .w v :: ts => sequencesFrom (held ++ [v]) ts
  | .eos :: ts => held :: sequencesFrom [] ts

/-- The complete sequences of an output stream, oldest first (R52). -/
def sequences (stream : List OutToken) : List (List Word) := sequencesFrom [] stream

/-- The data tokens before the last `EOS` of a stream, after the `EOS` before it if there is one (R199). -/
def lastSequence (stream : List OutToken) : List Word := (sequences stream).getLast?.getD []

/-- The payloads that follow the last `EOS` of a stream that follows the payloads `held`. -/
def openFrom (held : List Word) : List OutToken → List Word
  | [] => held
  | .w v :: ts => openFrom (held ++ [v]) ts
  | .eos :: ts => openFrom [] ts

/-- The payloads that no `EOS` follows yet: of a run that has not ended, or left by runs that ended badly or that a reset
dropped, until the host discards them (R275, R277). -/
def openPayloads (stream : List OutToken) : List Word := openFrom [] stream

/-- The status of the latest run: a flag of the path makes it ended badly whatever tokens were emitted; else, if its END has
succeeded, the result is the list of data tokens before that `EOS`, after the previous `EOS` (R199). -/
def RunTrack.status (r : RunTrack) (stream : List OutToken) (halted : Bool) : RunStatus :=
  if halted then .endedBadly
  else if r.ended then .endedWell (lastSequence stream)
  else .notEnded

/-- The payloads that the run itself has emitted: what a host keeps of the result once it has discarded the tokens that
earlier runs left without an `EOS` (R200, R277). -/
def RunTrack.emitted (r : RunTrack) (stream : List OutToken) : List Word := payloads (stream.drop r.start)

/-- The latest ENC run after a sequence of operations performed from `s`. -/
def RunTrack.encAfterAll (r : RunTrack) (s : State) (is : List Instr) : RunTrack :=
  ghostAll (fun r s i t => r.next (encRole i) s.codeOut t.codeOut t.encHalt) is s r

/-- The latest DEC run after a sequence of operations performed from `s`. -/
def RunTrack.decAfterAll (r : RunTrack) (s : State) (is : List Instr) : RunTrack :=
  ghostAll (fun r s i t => r.next (decRole i) s.wordOut t.wordOut t.decHalt) is s r

/-- The status of a run of the ENC path in a state. -/
def RunTrack.encStatus (r : RunTrack) (s : State) : RunStatus := r.status s.codeOut s.encHalt

/-- The status of a run of the DEC path in a state. -/
def RunTrack.decStatus (r : RunTrack) (s : State) : RunStatus := r.status s.wordOut s.decHalt

end Machine

end Sys2Proof
end

