-- ==== Sys2Proof/Safety.lean ====
section
/-! DEFINITION. What counts as a sound state and a safe step: the invariant of the registers, the events the ports can
carry, and idle paths. (Runs and their results: Machine/Run.lean.) -/

namespace Sys2Proof.Machine

/-- The invariant of the registers. In order: `cur == NONE` if and only if `cnt == 0` (R26); in bypass no run is pending
(R131, R134); at most one ENC flag is set (R33); `ERR_LEN` is set only with a partial triple held, and `ERR_TRUNC` only with
a generic run pending, because a halted path changes nothing (R114, R167, R244). -/
abbrev State.Inv (s : State) : Prop :=
  (s.cur = none ↔ s.cnt = 0#8) ∧
  (s.bypass = true → s.cnt = 0#8) ∧
  ¬ (s.errLen = true ∧ s.errInt = true) ∧
  (s.errLen = true → s.pk ≠ .empty) ∧
  (s.errTrunc = true → s.dcWait = true)

/-- Every event the host has issued is one the ports of a block with this `INT_W` can carry (R57). -/
abbrev State.InboxFits (W : IntW) (s : State) : Prop :=
  ∀ e ∈ s.inbox, (Encoding.event e).fits W = true

/-- The step ends in a next state: no fault and no refusal of the model. -/
abbrev StepRuns (W : IntW) (s : State) : Prop := ∃ t, stepAt W s = .next t

/-- PK and CP are in their reset state (R197). -/
abbrev State.encIdle (s : State) : Prop := s.pk = .empty ∧ s.cur = none ∧ s.cnt = 0#8

/-- DC is in its reset state (R197). -/
abbrev State.decIdle (s : State) : Prop := s.dcPend = none

/-- The last token on `CODE_OUT` is `EOS` and no flag of the ENC path is set: what a successful END of the path leaves. It
says nothing of a run begun since; `RunTrack.encStatus` does. -/
abbrev State.codeOutClosed (s : State) : Prop := s.codeOut.getLast? = some .eos ∧ s.encHalt = false

/-- The same of `WORD_OUT` and the DEC path. -/
abbrev State.wordOutClosed (s : State) : Prop := s.wordOut.getLast? = some .eos ∧ s.decHalt = false

end Sys2Proof.Machine
end

