-- ==== Sys2Proof/Certificates/Slice0/Obligations.lean ====
section
/-! DEFINITION. The statements for the provers, in the order of OBLIGATIONS.json: operations one at a time, then what every
operation keeps, then encodings, then the laws of whole sequences. An equation `exec i s = .next { s with … }` says the
result, that the operation completes, and its frame: every field not written there is unchanged. -/

open Sys2Proof Sys2Proof.Machine

/-! ### Resets and reads -/

/-- R190. `RST.ENC b`, on a halted path too: ENC registers and flags at their reset values, `b` latched, DC, `ERR_TRUNC` and
the emitted tokens untouched; and no other operation but `RST.ALL` ends a halt of the ENC path. -/
def Obligations.ResetEncClearsEncPath : Prop :=
  (∀ (b : BitVec 1) (s : State),
    exec (.rstEnc b) s =
      .next { s with pk := .empty, cur := none, cnt := 0#8, status := s.status &&& 0b100#3, cfg := b }) ∧
  (∀ (i : Instr) (s t : State), s.encHalt = true → exec i s = .next t → t.encHalt = false →
    ∃ b, i = .rstEnc b ∨ i = .rstAll b)

/-- R191. `RST.DEC`, on a halted path too. -/
def Obligations.ResetDecClearsDecPath : Prop :=
  ∀ s : State, exec .rstDec s = .next { s with dcPend := none, status := s.status &&& 0b011#3 }

/-- R192 and the table of R36. `RST.ALL b` is `RST.ENC b` and `RST.DEC` together, as one step; from any state it leaves every
register at its reset value. -/
def Obligations.ResetAllIsBothResets : Prop :=
  ∀ (b : BitVec 1) (s : State),
    exec (.rstAll b) s =
      .next { s with pk := .empty, cur := none, cnt := 0#8, dcPend := none, status := 0#3, cfg := b } ∧
    andThen (exec (.rstEnc b) s) (exec .rstDec) = exec (.rstAll b) s

/-- The reset state of the model is the state after `RST.ALL 0` with nothing issued or emitted. That the latched bit is 0
is the model's choice (log entry 4). -/
def Obligations.ResetStateFields : Prop :=
  State.reset.pkN = 0 ∧ State.reset.pkB0 = none ∧ State.reset.pkB1 = none ∧ State.reset.cur = none ∧
  State.reset.cnt = 0#8 ∧ State.reset.dcWait = false ∧ State.reset.dcCnt = none ∧ State.reset.status = 0b000#3 ∧
  State.reset.cfg = 0#1 ∧ State.reset.codeOut = [] ∧ State.reset.wordOut = [] ∧
  exec (.rstAll 0) State.reset = .next State.reset

/-- `STATUS.RD` gives the host `ERR_TRUNC : ERR_INT : ERR_LEN` and `CFG.RD` gives it `CFG.BYPASS`; neither changes anything
of the block, halted or not; `err` is the OR of the three flags. That an answer is appended to a list is the model's form
(log entry 3). -/
def Obligations.ReadsAnswerHost : Prop :=
  ∀ s : State,
    (∃ v : BitVec 3,
      exec .statusRd s = .next { s with reads := s.reads ++ [.status v] } ∧
      v.getLsbD 2 = s.errTrunc ∧ v.getLsbD 1 = s.errInt ∧ v.getLsbD 0 = s.errLen) ∧
    (∃ v : BitVec 1,
      exec .cfgRd s = .next { s with reads := s.reads ++ [.cfg v] } ∧ v.getLsbD 0 = s.bypass) ∧
    s.err = (s.errTrunc || s.errInt || s.errLen)

/-! ### The Packer -/

/-- R113. `PK.PUSH v`: ignored on a halted path; the first and second intensity fill their lanes and emit nothing; the
third hands `packw` of the triple to CP in the same step, with `pk_n` back at 0. -/
def Obligations.PkPushFillsTriple : Prop :=
  ∀ (v : Nat) (s : State),
    (s.encHalt = true → exec (.pkPush v) s = .next s) ∧
    (s.encHalt = false → 31 < v → exec (.pkPush v) s = .next { s with status := s.status ||| 0b010#3 }) ∧
    (s.encHalt = false → v ≤ 31 → s.pk = .empty →
      exec (.pkPush v) s = .next { s with pk := .one (BitVec.ofNat 5 v) }) ∧
    (∀ b0, s.encHalt = false → v ≤ 31 → s.pk = .one b0 →
      exec (.pkPush v) s = .next { s with pk := .two b0 (BitVec.ofNat 5 v) }) ∧
    (∀ b0 b1, s.encHalt = false → v ≤ 31 → s.pk = .two b0 b1 →
      exec (.pkPush v) s =
        exec (.cpPush (((BitVec.ofNat 5 v).setWidth 16 <<< 11) ||| (b1.setWidth 16 <<< 6) ||| b0.setWidth 16))
          { s with pk := .empty })

/-- R112. An intensity above 31 raises `InvalidIntensity`: `ERR_INT` is set and nothing else changes; with `INT_W = 5` no
token of `PIX_IN` can do so. -/
def Obligations.PkPushRejectsIntensity : Prop :=
  (∀ (v : Nat) (s : State), s.encHalt = false → 31 < v →
    exec (.pkPush v) s = .next { s with status := s.status ||| 0b010#3 }) ∧
  (∀ (W : IntW) (e : Encoding) (v : Nat), W.bits = 5 → decode W e = .ok (.pkPush v) → v ≤ 31)

/-- The third intensity of a triple completes, whatever CP holds: the frame of `PK.PUSH` with the effect of `CP.PUSH` in it.
The premise is R26 (an invariant of the model, `StepKeepsInvariant`). -/
def Obligations.PkPushTripleCompletes : Prop :=
  ∀ (v : Nat) (s : State) (b0 b1 : Lane), s.encHalt = false → v ≤ 31 → s.pk = .two b0 b1 →
    (s.cur = none ↔ s.cnt = 0#8) →
    ∃ (codes : List Word) (cur : Option Word) (cnt : Byte),
      exec (.pkPush v) s =
        .next { s with pk := .empty, cur := cur, cnt := cnt, codeOut := s.codeOut ++ codes.map .w } ∧
      exec (.cpPush (packw b0 b1 (BitVec.ofNat 5 v))) s =
        .next { s with cur := cur, cnt := cnt, codeOut := s.codeOut ++ codes.map .w }

/-- R114. `PK.END`: ignored on a halted path; with an unfinished triple `InvalidInputLength` and nothing else; else the
effect of `CP.END`, which completes under R26. -/
def Obligations.PkEndChecksLength : Prop :=
  ∀ s : State,
    (s.encHalt = true → exec .pkEnd s = .next s) ∧
    (s.encHalt = false → s.pkN ≠ 0 → exec .pkEnd s = .next { s with status := s.status ||| 0b001#3 }) ∧
    (s.encHalt = false → s.pkN = 0 → exec .pkEnd s = exec .cpEnd s) ∧
    (s.encHalt = false → s.pkN = 0 → (s.cur = none ↔ s.cnt = 0#8) →
      exec .pkEnd s =
        .next { s with cur := none, cnt := 0#8, codeOut := s.codeOut ++ (finPending s.cur s.cnt).map .w ++ [.eos] })

/-- The PackedWord's row acts on CP as `CP.PUSH` of the packed word does, and completes under R26. That the row, which the
spec calls a data format, has this meaning is the model's choice (log entry 7). -/
def Obligations.PackedWordActsOnCompressor : Prop :=
  ∀ (p0 p1 p2 : Lane) (w : Word) (s : State),
    w = (p2.setWidth 16 <<< 11) ||| (p1.setWidth 16 <<< 6) ||| p0.setWidth 16 →
    exec (.pw p0 p1 p2) s = exec (.cpPush w) s ∧
    (s.encHalt = true → exec (.pw p0 p1 p2) s = .next s) ∧
    (s.encHalt = false → s.bypass = true →
      exec (.pw p0 p1 p2) s = .next { s with codeOut := s.codeOut ++ [.w w] }) ∧
    (s.encHalt = false → s.bypass = false → extendsRun w s.cur s.cnt = true →
      exec (.pw p0 p1 p2) s = .next { s with cnt := s.cnt + 1#8 }) ∧
    ((s.cur = none ↔ s.cnt = 0#8) → s.encHalt = false → s.bypass = false → extendsRun w s.cur s.cnt = false →
      exec (.pw p0 p1 p2) s =
        .next { s with cur := some w, cnt := 1#8, codeOut := s.codeOut ++ (finPending s.cur s.cnt).map .w })

/-! ### The Compressor -/

/-- R131, R132, R133. `CP.PUSH w`: ignored on a halted path; in bypass `W(w)` is emitted and `cur`, `cnt` are not written; a
word equal to `cur` below the cap makes `cnt` one more, without wrapping, and emits nothing; in every other case the
pending run, if there is one, is closed and a run of one begins. (How a run's codes are made: `RunEmission`.) -/
def Obligations.CpPushTransition : Prop :=
  ∀ (w : Word) (s : State),
    (s.encHalt = true → exec (.cpPush w) s = .next s) ∧
    (s.encHalt = false → s.bypass = true →
      exec (.cpPush w) s = .next { s with codeOut := s.codeOut ++ [.w w] }) ∧
    (s.encHalt = false → s.bypass = false → s.cnt ≠ 0#8 → s.cur = some w → s.cnt.toNat < 255 →
      exec (.cpPush w) s = .next { s with cnt := s.cnt + 1#8 } ∧
      (s.cnt + 1#8).toNat = s.cnt.toNat + 1 ∧ 2 ≤ (s.cnt + 1#8).toNat ∧ (s.cnt + 1#8).toNat ≤ 255) ∧
    (s.encHalt = false → s.bypass = false → s.cnt = 0#8 →
      exec (.cpPush w) s = .next { s with cur := some w, cnt := 1#8 }) ∧
    (∀ V, s.encHalt = false → s.bypass = false → s.cnt ≠ 0#8 → s.cur = some V → (w ≠ V ∨ s.cnt = 255#8) →
      exec (.cpPush w) s =
        .next { s with cur := some w, cnt := 1#8, codeOut := s.codeOut ++ (finCodes V s.cnt).map .w })

/-- R134. `CP.END` finalizes the pending run, returns `cur` and `cnt` to their reset values and emits `EOS`; with nothing
pending, as always in bypass, it emits `EOS` alone; a halted path ignores it. -/
def Obligations.CpEndFlushesRun : Prop :=
  ∀ s : State,
    (s.encHalt = true → exec .cpEnd s = .next s) ∧
    (s.encHalt = false → s.cnt = 0#8 →
      exec .cpEnd s = .next { s with cur := none, cnt := 0#8, codeOut := s.codeOut ++ [.eos] }) ∧
    (∀ V, s.encHalt = false → s.cnt ≠ 0#8 → s.cur = some V →
      exec .cpEnd s =
        .next { s with cur := none, cnt := 0#8, codeOut := s.codeOut ++ (finCodes V s.cnt).map .w ++ [.eos] }) ∧
    (s.encHalt = false → s.bypass = true → s.Inv → exec .cpEnd s = .next { s with codeOut := s.codeOut ++ [.eos] })

/-- R135 to R138. The codes of a finalized run of value `V` and length `L`: the literal, the zero run, the full run, or the
generic escape followed by the value; and `CP.END` and a `CP.PUSH` that closes the run emit exactly those. -/
def Obligations.RunEmission : Prop :=
  ∀ (V : Word) (L : Byte),
    (L.toNat = 1 → finCodes V L = [V]) ∧
    (1 < L.toNat → V = 0x0000#16 → finCodes V L = [(L.setWidth 16 <<< 8) ||| 0x00FF#16]) ∧
    (1 < L.toNat → V = 0xFFDF#16 → finCodes V L = [(L.setWidth 16 <<< 8) ||| 0x00FE#16]) ∧
    (1 < L.toNat → V ≠ 0x0000#16 → V ≠ 0xFFDF#16 → finCodes V L = [(L.setWidth 16 <<< 8) ||| 0x00F0#16, V]) ∧
    (∀ s : State, s.encHalt = false → s.cur = some V → s.cnt = L → 1 ≤ L.toNat →
      exec .cpEnd s =
        .next { s with cur := none, cnt := 0#8, codeOut := s.codeOut ++ (finCodes V L).map .w ++ [.eos] } ∧
      (∀ w, s.bypass = false → (w ≠ V ∨ L = 255#8) →
        exec (.cpPush w) s =
          .next { s with cur := some w, cnt := 1#8, codeOut := s.codeOut ++ (finCodes V L).map .w }))

/-! ### The Decoder -/

/-- R162. A literal in escape position is appended unchanged, as a code row and as `DC.PUSH`. -/
def Obligations.LiteralIsAppended : Prop :=
  ∀ (v : Word) (s : State), s.decHalt = false → s.dcPend = none →
    lo v ≠ 0xFF → lo v ≠ 0xFE → lo v ≠ 0xF0 →
    exec (.lit v) s = .next { s with wordOut := s.wordOut ++ [.w v] } ∧
    exec (.dcPush v) s = .next { s with wordOut := s.wordOut ++ [.w v] }

/-- R163. A zero-run escape appends `n` copies of 0x0000, for every `n` from 0 to 255. -/
def Obligations.ZeroRunIsExpanded : Prop :=
  ∀ (n : Byte) (s : State), s.decHalt = false → s.dcPend = none →
    exec (.zrun n) s = .next { s with wordOut := s.wordOut ++ List.replicate n.toNat (.w 0x0000) } ∧
    exec (.dcPush (n ++ 0xFF#8)) s = .next { s with wordOut := s.wordOut ++ List.replicate n.toNat (.w 0x0000) }

/-- R164. A full-run escape appends `n` copies of 0xFFDF, for every `n` from 0 to 255. -/
def Obligations.FullRunIsExpanded : Prop :=
  ∀ (n : Byte) (s : State), s.decHalt = false → s.dcPend = none →
    exec (.frun n) s = .next { s with wordOut := s.wordOut ++ List.replicate n.toNat (.w 0xFFDF) } ∧
    exec (.dcPush (n ++ 0xFE#8)) s = .next { s with wordOut := s.wordOut ++ List.replicate n.toNat (.w 0xFFDF) }

/-- R165. The first code of a generic run records its count, 0 included, and emits nothing. -/
def Obligations.GenericRunIsRecorded : Prop :=
  ∀ (n : Byte) (s : State), s.decHalt = false → s.dcPend = none →
    exec (.grun n) s = .next { s with dcPend := some n } ∧
    exec (.dcPush (n ++ 0xF0#8)) s = .next { s with dcPend := some n }

/-- R166. While a generic run is pending, any code is its operand, whatever its low byte. -/
def Obligations.GenericRunOperandIsRepeated : Prop :=
  ∀ (c : Word) (n : Byte) (s : State), s.decHalt = false → s.dcPend = some n →
    exec (.grunOperand c) s =
      .next { s with dcPend := none, wordOut := s.wordOut ++ List.replicate n.toNat (.w c) } ∧
    exec (.dcPush c) s =
      .next { s with dcPend := none, wordOut := s.wordOut ++ List.replicate n.toNat (.w c) }

/-- R161. `DC.PUSH c` on a path that is not halted runs the instruction its code is decoded to, the pending run being
tested first; on a halted path it does nothing; it always completes and writes no flag. -/
def Obligations.DcPushRunsDecodedCode : Prop :=
  ∀ (c : Word) (s : State),
    (s.decHalt = true → exec (.dcPush c) s = .next s) ∧
    exec (.dcPush c) s = exec (decodeCode s.dcWait c) s ∧
    ∃ t, exec (.dcPush c) s = .next t ∧ t.status = s.status

/-- The five code rows stand for a code in front of DC in every state: a well-formed one acts as `DC.PUSH` of its code
does. That a row is given this meaning outside its table condition is the model's choice (log entry 8). -/
def Obligations.CodeRowsActAsDcPush : Prop :=
  ∀ (W : IntW) (i : Instr) (wait : Bool) (c : Word) (s : State),
    i.wf W = true → encode i = .code wait c → exec i s = exec (.dcPush c) s

/-- R167. `DC.END`: ignored on a halted path; `TruncatedStream` and nothing else while an operand is awaited; else `EOS`. -/
def Obligations.DcEndChecksOperand : Prop :=
  ∀ s : State,
    (s.decHalt = true → exec .dcEnd s = .next s) ∧
    (s.decHalt = false → s.dcWait = true → exec .dcEnd s = .next { s with status := s.status ||| 0b100#3 }) ∧
    (s.decHalt = false → s.dcWait = false → exec .dcEnd s = .next { s with wordOut := s.wordOut ++ [.eos] })

/-! ### What every operation does -/

/-- A halted path ignores its operations; the reads and the resets complete on it as on any state (R198). That an answer is
appended to a list is the model's choice (log entry 3), and so is that the row `PW` is an operation of the ENC path (log entry
7). -/
def Obligations.HaltedPathIgnoresOperations : Prop :=
  (∀ (i : Instr) (s : State), s.encHalt = true → i.onEnc = true → i.isReset = false → exec i s = .next s) ∧
  (∀ (i : Instr) (s : State), s.decHalt = true → i.onDec = true → i.isReset = false → exec i s = .next s) ∧
  (∀ s : State, exec .statusRd s = .next { s with reads := s.reads ++ [.status s.status] }) ∧
  (∀ s : State, exec .cfgRd s = .next { s with reads := s.reads ++ [.cfg s.cfg] }) ∧
  (∀ (b : BitVec 1) (s : State), ∃ t u v,
    exec (.rstEnc b) s = .next t ∧ t.encHalt = false ∧ exec .rstDec s = .next u ∧ u.decHalt = false ∧
    exec (.rstAll b) s = .next v ∧ v.encHalt = false ∧ v.decHalt = false)

/-- R240. A flag rises by its own operation on its own condition and by nothing else, and a fault records nothing besides
its flag. -/
def Obligations.FaultsAreRaisedAsTabled : Prop :=
  (∀ s : State, s.encHalt = false → s.pkN ≠ 0 → exec .pkEnd s = .next { s with status := s.status ||| 0b001#3 }) ∧
  (∀ (v : Nat) (s : State), s.encHalt = false → 31 < v →
    exec (.pkPush v) s = .next { s with status := s.status ||| 0b010#3 }) ∧
  (∀ s : State, s.decHalt = false → s.dcWait = true → exec .dcEnd s = .next { s with status := s.status ||| 0b100#3 }) ∧
  (∀ (i : Instr) (s t : State), exec i s = .next t →
    (s.errLen = false → t.errLen = true → i = .pkEnd ∧ s.pkN ≠ 0 ∧ t = { s with status := s.status ||| 0b001#3 }) ∧
    (s.errInt = false → t.errInt = true →
      (∃ v, i = .pkPush v ∧ 31 < v) ∧ t = { s with status := s.status ||| 0b010#3 }) ∧
    (s.errTrunc = false → t.errTrunc = true →
      i = .dcEnd ∧ s.dcWait = true ∧ t = { s with status := s.status ||| 0b100#3 }))

/-- R250. A flag is cleared only by a reset of its path, which also discards the path's pending state. -/
def Obligations.FlagsClearedOnlyByReset : Prop :=
  ∀ (i : Instr) (s t : State), exec i s = .next t →
    (s.encHalt = true → t.encHalt = false → (∃ b, i = .rstEnc b ∨ i = .rstAll b) ∧ t.encIdle) ∧
    (s.errLen = true → t.errLen = false → ∃ b, i = .rstEnc b ∨ i = .rstAll b) ∧
    (s.errInt = true → t.errInt = false → ∃ b, i = .rstEnc b ∨ i = .rstAll b) ∧
    (s.errTrunc = true → t.errTrunc = false → (i = .rstDec ∨ ∃ b, i = .rstAll b) ∧ t.decIdle) ∧
    (s.encHalt = true → i.onEnc = true → i.isReset = false → t = s) ∧
    (s.decHalt = true → i.onDec = true → i.isReset = false → t = s)

/-- `CFG` changes only by being latched from the operand of `RST.ENC` or `RST.ALL` (R32, R276). -/
def Obligations.BypassLatchedOnlyByReset : Prop :=
  ∀ (i : Instr) (s t : State), exec i s = .next t →
    (∀ b, i = .rstEnc b ∨ i = .rstAll b → t.cfg = b) ∧
    ((∀ b, i ≠ .rstEnc b ∧ i ≠ .rstAll b) → t.cfg = s.cfg)

/-- The output streams are append-only, under resets and faults too (R29, R52). That the host's answers are a list, which no
operation shortens, is the model's choice (log entry 3). -/
def Obligations.StreamsAreAppendOnly : Prop :=
  ∀ (i : Instr) (s t : State), exec i s = .next t →
    s.codeOut <+: t.codeOut ∧ s.wordOut <+: t.wordOut ∧ s.reads <+: t.reads

/-- The frame of the paths: an operation that is not on a path changes nothing of it (R20, R160). The last two clauses are
about lists of the model's own: only the two reads add an answer (log entry 3), and no operation touches the events still to
come (log entry 2). -/
def Obligations.PathsAreFramed : Prop :=
  ∀ (i : Instr) (s t : State), exec i s = .next t →
    (i.onEnc = false → t.encView = s.encView) ∧
    (i.onDec = false → t.decView = s.decView) ∧
    (i ≠ .statusRd → i ≠ .cfgRd → t.reads = s.reads) ∧
    t.inbox = s.inbox

/-- A successful END leaves its units in their reset state, `CFG` and `STATUS` unchanged (R197; `CP.END` from the host
leaves a partial triple of PK alone, R278, log entry 10). -/
def Obligations.EndRestoresResetState : Prop :=
  ∀ s t : State,
    (s.encHalt = false → exec .pkEnd s = .next t → t.encHalt = false →
      t.encIdle ∧ t.codeOutClosed ∧ t.cfg = s.cfg ∧ t.status = s.status) ∧
    (s.encHalt = false → exec .cpEnd s = .next t →
      t.cur = none ∧ t.cnt = 0#8 ∧ t.pk = s.pk ∧ t.codeOutClosed ∧ t.cfg = s.cfg ∧ t.status = s.status) ∧
    (s.decHalt = false → exec .dcEnd s = .next t → t.decHalt = false →
      t.decIdle ∧ t.wordOutClosed ∧ t.cfg = s.cfg ∧ t.status = s.status)

/-- The model stops only where the spec gives `finalize` no meaning: no instruction refuses, and a fault happens only in a
state that breaks R26 (log entry 5). -/
def Obligations.ExecStopsOnlyWithoutRunValue : Prop :=
  ∀ (i : Instr) (s : State),
    (∀ r, exec i s ≠ .refused r) ∧
    (∀ f, exec i s = .fault f → f = .finalizeNone ∧ s.cur = none ∧ s.cnt ≠ 0#8)

/-! ### The step -/

/-- A step of a block with any `INT_W` takes the oldest event the host has issued and runs the instruction it decodes to;
with no event nothing happens; an event no port can carry is refused by name (log entries 2 and 6). An intensity from 32 up to
the width of the port is a token and raises `InvalidIntensity` (R112). The host's step is the one at the default width (R6, log
entry 1). -/
def Obligations.StepRunsDecodedInstruction : Prop :=
  (∀ (W : IntW) (s : State) (e : HostEvent) (es : List HostEvent) (i : Instr), s.inbox = e :: es →
    decode W (.event e) = .ok i → stepAt W s = exec i { s with inbox := es }) ∧
  (∀ (W : IntW) (s : State), s.inbox = [] → stepAt W s = .next s) ∧
  (∀ (W : IntW) (s : State) (v : Nat) (es : List HostEvent), s.inbox = .pixData v :: es → 2 ^ W.bits ≤ v →
    stepAt W s = .refused (.notAToken (.pixelTooWide v))) ∧
  (∀ (W : IntW) (s : State) (v : Nat) (es : List HostEvent), s.inbox = .pixData v :: es → s.encHalt = false →
    31 < v → v < 2 ^ W.bits → stepAt W s = .next { s with inbox := es, status := s.status ||| 0b010#3 }) ∧
  (∀ s : State, step s = stepAt Config.intW s)

/-- A code placed as the next event is what the next step runs, and in escape position it is the instruction the decoder
reads from the code's table word (log entry 9). -/
def Obligations.FetchedCodeRuns : Prop :=
  ∀ (s : State) (c : Word),
    step (s.withFetchWord 16 c.toNat) = exec (.dcPush c) s ∧
    decodeTableWord 16 c.toNat = some (decodeCode false c) ∧
    (s.dcWait = false → step (s.withFetchWord 16 c.toNat) = exec (decodeCode false c) s)

/-- The steps of a block with any `INT_W` perform the issued events in order, one a step; the host's runs are those at the
default width. That the events of both paths wait in one list, of which a step takes the oldest, is the model's choice (log
entry 2). -/
def Obligations.RunTakesEventsInOrder : Prop :=
  (∀ (W : IntW) (es rest : List HostEvent) (is : List Instr) (s : State),
    es.mapM (fun e => decode W (.event e)) = .ok is →
    runAt W es.length { s with inbox := es ++ rest } = execAll is { s with inbox := rest }) ∧
  (∀ (n : Nat) (s : State), Sys2Proof.core.run n s = runAt Config.intW n s)

/-- The invariant holds after every reset, whatever bit it latches. -/
def Obligations.ResetMeetsInvariant : Prop :=
  (∀ b : BitVec 1, (State.resetWith b).Inv) ∧ State.reset.Inv ∧ ∀ W : IntW, State.reset.InboxFits W

/-- Every step, at any `INT_W`, keeps the invariant: `cur == NONE` iff `cnt == 0` (R26), nothing pending in bypass, at most one ENC flag
(R33), a length fault only with a partial triple and a truncation fault only with an operand awaited. -/
def Obligations.StepKeepsInvariant : Prop :=
  (∀ (W : IntW) (s t : State), s.Inv → stepAt W s = .next t → t.Inv) ∧
  (∀ s t : State, s.Inv → step s = .next t → t.Inv)

/-- From a state that meets the invariant, with events that the ports can carry, every operation sequence has a defined
result: a step never stops, and so for any number of steps (R200, R248). -/
def Obligations.EveryRunIsDefined : Prop :=
  (∀ (W : IntW) (n : Nat) (s : State), s.Inv → s.InboxFits W →
    ∃ t, runAt W n s = .next t ∧ t.Inv ∧ t.InboxFits W) ∧
  (∀ (n : Nat) (s : State), s.Inv → s.InboxFits Config.intW → ∃ t, Sys2Proof.core.run n s = .next t)

/-! ### Encodings -/

/-- Decode and encode agree on every well-formed instruction, every operand at every value its field admits, for every
width of `PIX_IN`. -/
def Obligations.DecodeOfEncode : Prop :=
  ∀ (W : IntW) (i : Instr), i.wf W = true → decode W (encode i) = .ok i

/-- What the decoder accepts has one meaning: it is a well-formed instruction whose encoding it is; and it accepts exactly
what the hardware can carry. -/
def Obligations.EncodeOfDecode : Prop :=
  ∀ (W : IntW) (e : Encoding),
    (∀ i, decode W e = .ok i → encode i = e ∧ i.wf W = true) ∧
    ((∃ i, decode W e = .ok i) ↔ e.fits W = true)

/-- A code that is not an operand is classified by its low byte alone, its count is the high byte; an operand is not
classified (R82, R87, R93). -/
def Obligations.CodesClassifiedByLowByte : Prop :=
  ∀ n l : Byte,
    (l = 0xFF → decodeCode false (n ++ l) = .zrun n) ∧
    (l = 0xFE → decodeCode false (n ++ l) = .frun n) ∧
    (l = 0xF0 → decodeCode false (n ++ l) = .grun n) ∧
    (l ≠ 0xFF → l ≠ 0xFE → l ≠ 0xF0 → decodeCode false (n ++ l) = .lit (n ++ l)) ∧
    decodeCode true (n ++ l) = .grunOperand (n ++ l)

/-- Some words of each format, written out from the spec's patterns, and the instructions they stand for. -/
def Obligations.KnownWordsDecode : Prop :=
  decode Config.intW (.code false 0b0000010111111111#16) = .ok (.zrun 5) ∧
  decode Config.intW (.code false 0b0000001111111110#16) = .ok (.frun 3) ∧
  decode Config.intW (.code false 0b0000010011110000#16) = .ok (.grun 4) ∧
  decode Config.intW (.code true 0b0000001111111111#16) = .ok (.grunOperand 0x03FF) ∧
  decode Config.intW (.code false 0b0001001000110100#16) = .ok (.lit 0x1234) ∧
  decode Config.intW (.packed 0b1010101111001101#16) = .ok (.pw 13 15 21) ∧
  decode Config.intW (.packed 0b0001001000110100#16) = .error (.padBitSet 0x1234) ∧
  decode Config.intW (.event (.pixData 0b11111111)) = .ok (.pkPush 255) ∧
  decode Config.intW (.event (.pixData 0b100000000)) = .error (.pixelTooWide 256)

/-- R212, with the value of R111. No packed word has a sentinel low byte, because its bit 5 is 0; so DC reads every packed
word as a literal. The word is `p2 * 2^11 + p1 * 2^6 + p0`, at most 0xFFDF. -/
def Obligations.PackedWordsAreNeverEscapes : Prop :=
  ∀ p0 p1 p2 : Lane,
    lo (packw p0 p1 p2) ≠ 0xFF#8 ∧ lo (packw p0 p1 p2) ≠ 0xFE#8 ∧ lo (packw p0 p1 p2) ≠ 0xF0#8 ∧
    (packw p0 p1 p2).getLsbD 5 = false ∧ decodeCode false (packw p0 p1 p2) = .lit (packw p0 p1 p2) ∧
    (packw p0 p1 p2).toNat = p2.toNat * 2 ^ 11 + p1.toNat * 2 ^ 6 + p0.toNat ∧ (packw p0 p1 p2).toNat ≤ 0xFFDF

/-- R211. Unpacking recovers the triple; the other direction holds exactly for words with bit 5 clear. -/
def Obligations.UnpackRecoversTriple : Prop :=
  (∀ p0 p1 p2 : Nat, p0 ≤ 31 → p1 ≤ 31 → p2 ≤ 31 →
    pack [p0, p1, p2] = .ok [packw (laneOf p0) (laneOf p1) (laneOf p2)] ∧ unpackAll [packw (laneOf p0) (laneOf p1) (laneOf p2)] = [p0, p1, p2]) ∧
  (∀ p0 p1 p2 : Lane, unpack (packw p0 p1 p2) = (p0, p1, p2)) ∧
  (∀ w : Word, packw (unpack w).1 (unpack w).2.1 (unpack w).2.2 = w ↔ w.getLsbD 5 = false)

/-! ### Laws of whole sequences -/

/-- R116. The batch function `pack`: which failure it reports, and each word of its result. -/
def Obligations.PackContract : Prop :=
  ∀ I : List Nat,
    (pack I = .error .invalidIntensity ↔ ∃ v ∈ I, 31 < v) ∧
    (pack I = .error .invalidInputLength ↔ (∀ v ∈ I, v ≤ 31) ∧ I.length % 3 ≠ 0) ∧
    (∀ W, pack I = .ok W → W.length = I.length / 3 ∧
      ∀ j, j < W.length →
        W[j]? = some (packw (laneOf (I.getD (3 * j) 0)) (laneOf (I.getD (3 * j + 1) 0)) (laneOf (I.getD (3 * j + 2) 0)))) ∧
    ((∀ v ∈ I, v ≤ 31) → I.length % 3 = 0 → ∃ W, pack I = .ok W)

/-- R213 to R218. The source's vectors for `compress`, as printed, with and without neighbours. -/
def Obligations.CompressVectors : Prop :=
  compress (List.replicate 5 0x0000) = [0x05FF] ∧
  compress ([0x0001] ++ List.replicate 5 0x0000 ++ [0x0001]) = [0x0001, 0x05FF, 0x0001] ∧
  compress (List.replicate 3 0xFFDF) = [0x03FE] ∧
  compress (List.replicate 4 0x1234) = [0x04F0, 0x1234] ∧
  compress [0xABCD] = [0xABCD] ∧
  compress (List.replicate 300 0x1234) = [0xFFF0, 0x1234, 0x2DF0, 0x1234] ∧
  compress [] = [] ∧ pack [] = .ok [] ∧ decodeStream [] = .ok [] ∧
  (∀ b, exec .cpEnd (State.resetWith b) = .next { State.resetWith b with codeOut := [.eos] })

/-- R210. Round trip: `decode(compress(W)) == W` for every sequence of words with non-sentinel low bytes, which takes in every
sequence of words with bit 5 clear; not for all sequences; and only a run of one whose value has a sentinel low byte is
misread. -/
def Obligations.DecodeInvertsCompress : Prop :=
  (∀ W : List Word, roundTripDomain W → decodeStream (compress W) = .ok W) ∧
  (∀ W : List Word, (∀ w ∈ W, w.getLsbD 5 = false) → roundTripDomain W) ∧
  (compress [0x01FF] = [0x01FF] ∧ decodeStream [0x01FF] = .ok [0x0000]) ∧
  (compress [0x00FF, 0x00FF] = [0x02F0, 0x00FF] ∧ decodeStream [0x02F0, 0x00FF] = .ok [0x00FF, 0x00FF]) ∧
  (∀ W : List Word, (∀ r ∈ runs W, r.2 = 1#8 → isSentinel (lo r.1) = false) → decodeStream (compress W) = .ok W)

/-- Raw words with non-sentinel low bytes decode to themselves: the non-trivial companion of R219, and R196. -/
def Obligations.RawWordsDecodeToThemselves : Prop :=
  (∀ W : List Word, decodeLiteral W = W ∧ (roundTripDomain W → decodeStream W = .ok W)) ∧
  (∀ (I : List Nat) (W : List Word), pack I = .ok W → decodeStream W = .ok W)

/-- `compress` never lengthens; a run of one gives one code and a longer run at most two; equality without equal
neighbours (R220). -/
def Obligations.CompressNeverLengthens : Prop :=
  (∀ W : List Word, (compress W).length ≤ W.length) ∧
  (∀ (V : Word) (L : Byte), 1 ≤ L.toNat → (finCodes V L).length ≤ (if L = 1#8 then 1 else 2)) ∧
  (∀ W : List Word, (∀ X Y v, W ≠ X ++ v :: v :: Y) → compress W = W)

/-- The finalized runs of a sequence: every length in [1,255], their concatenation is the sequence, a value repeats in the
next run only after a run of 255, and `compress` emits their codes in order (R221). -/
def Obligations.CompressFollowsRuns : Prop :=
  ∀ W : List Word,
    compress W = (runs W).flatMap (fun r => finCodes r.1 r.2) ∧
    (runs W).flatMap (fun r => List.replicate r.2.toNat r.1) = W ∧
    ((runs W).map (fun r => r.2.toNat)).sum = W.length ∧
    (∀ r ∈ runs W, 1 ≤ r.2.toNat ∧ r.2.toNat ≤ 255) ∧
    (∀ X Y a b, runs W = X ++ a :: b :: Y → a.1 = b.1 → a.2.toNat = 255)

/-- A stretch of `N` equal words is split into runs of 255 and the rest (R139). -/
def Obligations.LongRunsAreSplit : Prop :=
  ∀ (N : Nat) (V : Word),
    compress (List.replicate N V) =
      (List.replicate (N / 255) (finCodes V 255)).flatten ++
        (if N % 255 = 0 then [] else finCodes V (BitVec.ofNat 8 (N % 255)))

/-- The streams `compress` makes of words with non-sentinel low bytes are exactly the canonical streams (R94). -/
def Obligations.CompressImageIsCanonical : Prop :=
  ∀ S : List Word,
    (∃ W, roundTripDomain W ∧ compress W = S) ↔
      ∃ items : List Item, canonicalItems items = true ∧ S = items.flatMap Item.codes

/-- Decoding is reading a stream as items from its first code, two codes for a generic run and one for all others, and
expanding each (R82, R88, R168, R170). -/
def Obligations.DecodeExpandsItems : Prop :=
  (∀ S : List Word, decodeStream S = (itemise S).map (fun items => items.flatMap Item.expand)) ∧
  (∀ (S : List Word) (items : List Item), itemise S = .ok items → items.flatMap Item.codes = S) ∧
  (∀ (S : List Word) (f : PathFault), decodeStream S = .error f → f = .truncatedStream)

/-- Expansion is bounded: `decode` makes at most 255 words of a code, and one `DC.PUSH` emits at most 255 data tokens and
no `EOS` (R224, R281). -/
def Obligations.ExpansionIsBounded : Prop :=
  (∀ (S W : List Word), decodeStream S = .ok W → W.length ≤ 255 * S.length) ∧
  (∀ (c : Word) (s : State), ∃ t ws, exec (.dcPush c) s = .next t ∧ t.wordOut = s.wordOut ++ List.map .w ws ∧
    ws.length ≤ 255) ∧
  (∀ (I : List Nat) (W : List Word), pack I = .ok W → W.length = I.length / 3)

/-- Streaming equals batch for the Packer, observed in bypass: on success the words and `EOS`, with PK back in its reset
state; on failure the flag the failure names, no `EOS`, and the words of the complete triples before the failure (R118). -/
def Obligations.StreamingPackEqualsBatch : Prop :=
  ∀ (I : List Nat) (s : State),
    (∀ W, pack I = .ok W →
      execAll (.rstAll 1 :: I.map .pkPush ++ [.pkEnd]) s =
        .next { s with
          pk := .empty, cur := none, cnt := 0#8, dcPend := none, status := 0#3, cfg := 1#1
          codeOut := s.codeOut ++ W.map .w ++ [.eos] }) ∧
    (∀ f, pack I = .error f →
      ∃ t, execAll (.rstAll 1 :: I.map .pkPush ++ [.pkEnd]) s = .next t ∧
        t.errInt = decide (f = .invalidIntensity) ∧ t.errLen = decide (f = .invalidInputLength) ∧
        t.errTrunc = false ∧
        t.codeOut = s.codeOut ++ (packTriples (I.takeWhile legalIntensity)).map .w)

/-- Streaming equals batch for the Compressor, from any state in which the path is idle (after a reset or a successful END),
whatever the bypass setting; CP is back in its reset state (R141). -/
def Obligations.StreamingCompressEqualsBatch : Prop :=
  ∀ (W : List Word) (s : State), s.cur = none → s.cnt = 0#8 → s.encHalt = false →
    execAll (W.map .cpPush ++ [.cpEnd]) s =
      .next { s with codeOut := s.codeOut ++ (if s.bypass then W else compress W).map .w ++ [.eos] }

/-- Streaming equals batch for the Decoder, from any state in which DC is idle: the words and `EOS`; or, on failure,
`ERR_TRUNC`, no `EOS`, and the words of the stream without its last code (R169). -/
def Obligations.StreamingDecodeEqualsBatch : Prop :=
  ∀ (S : List Word) (s : State), s.dcPend = none → s.decHalt = false →
    (∀ W, decodeStream S = .ok W →
      execAll (S.map .dcPush ++ [.dcEnd]) s = .next { s with wordOut := s.wordOut ++ W.map .w ++ [.eos] }) ∧
    (∀ f, decodeStream S = .error f →
      ∃ X c W, S = X ++ [c] ∧ decodeStream X = .ok W ∧
        execAll (S.map .dcPush ++ [.dcEnd]) s =
          .next { s with
            wordOut := s.wordOut ++ W.map .w, dcPend := some (hi c), status := s.status ||| 0b100#3 })

/-- The ENC path computes `encode(b, I)`, from any state in which it is idle (R195). -/
def Obligations.StreamingEncodeEqualsBatch : Prop :=
  ∀ (I : List Nat) (S : List Word) (s : State), s.encIdle → s.encHalt = false →
    encodeSequence s.cfg I = .ok S →
    execAll (I.map .pkPush ++ [.pkEnd]) s = .next { s with codeOut := s.codeOut ++ S.map .w ++ [.eos] }

/-- End to end: what the ENC path makes of intensities, compressed or raw, the DEC path turns back into the packed words,
and unpacking those gives the intensities; both paths end in their reset state (R223). -/
def Obligations.EndToEndRoundTrip : Prop :=
  ∀ (I : List Nat) (W : List Word) (s : State), pack I = .ok W →
    s.encIdle → s.encHalt = false → s.decIdle → s.decHalt = false →
    ∃ S : List Word,
      execAll (I.map .pkPush ++ [.pkEnd]) s = .next { s with codeOut := s.codeOut ++ S.map .w ++ [.eos] } ∧
      execAll (S.map .dcPush ++ [.dcEnd]) s = .next { s with wordOut := s.wordOut ++ W.map .w ++ [.eos] } ∧
      unpackAll W = I

/-- `pk_n` is the number of intensities pushed since the last reset or `PK.END`, modulo 3, on every run that ends without an
ENC fault (R22, R30, R241). On every run of pushes, faulting or not, CP's position grows by what CP consumes: in bypass by
the tokens emitted, when the words come from PK alone; and a faulting or ignored `PK.END` ends PK's sequence but not CP's
(log entry 15). -/
def Obligations.TriplePositionCountsModThree : Prop :=
  (∀ (is : List Instr) (s t : State) (p : Positions), s.encHalt = false → s.pkN = p.pk % 3 →
    execAll is s = .next t → t.encHalt = false → t.pkN = (p.afterAll s is).pk % 3) ∧
  (∀ (is : List Instr) (s t : State) (p : Positions), s.bypass = true →
    (∀ i ∈ is, (encRole i = .push ∨ encRole i = .other) ∧ ∀ w, i ≠ .cpPush w) → execAll is s = .next t →
    (p.afterAll s is).cp + s.codeOut.length = p.cp + t.codeOut.length) ∧
  (∀ (s : State) (p : Positions), s.encHalt = true ∨ s.pkN ≠ 0 →
    p.after s .pkEnd = { p with pk := 0 } ∧ ∀ t, exec .pkEnd s = .next t → t.codeOut = s.codeOut)

/-- How a run of a path ends (R199, U18; how the model follows a run: log entry 17). A run of pushes alone has not ended, or
has ended badly if a flag of the path is 1. An END ends it badly if a flag is 1 after it; else it ends well: the END has
emitted `EOS`, and the result is what the run emitted, after whatever earlier runs left on the stream without an `EOS`. A
reset begins a run that has not ended, and so does the first push after a run that ended well. -/
def Obligations.RunsEndWithResultOrNone : Prop :=
  (∀ (is : List Instr) (s t : State), (∀ i ∈ is, encRole i = .push ∨ encRole i = .other) → execAll is s = .next t →
    ((RunTrack.begin s.codeOut).encAfterAll s is).encStatus t = (if t.encHalt then .endedBadly else .notEnded) ∧
    ∀ (e : Instr) (u : State), encRole e = .finish → exec e t = .next u →
      (u.encHalt = true → ((RunTrack.begin s.codeOut).encAfterAll s (is ++ [e])).encStatus u = .endedBadly) ∧
      (u.encHalt = false → ∃ ws, u.codeOut = s.codeOut ++ ws.map .w ++ [.eos] ∧
        ((RunTrack.begin s.codeOut).encAfterAll s (is ++ [e])).encStatus u =
          .endedWell (openPayloads s.codeOut ++ ws) ∧
        ((RunTrack.begin s.codeOut).encAfterAll s (is ++ [e])).emitted u.codeOut = ws)) ∧
  (∀ (is : List Instr) (s t : State), (∀ i ∈ is, decRole i = .push ∨ decRole i = .other) → execAll is s = .next t →
    ((RunTrack.begin s.wordOut).decAfterAll s is).decStatus t = (if t.decHalt then .endedBadly else .notEnded) ∧
    ∀ (e : Instr) (u : State), decRole e = .finish → exec e t = .next u →
      (u.decHalt = true → ((RunTrack.begin s.wordOut).decAfterAll s (is ++ [e])).decStatus u = .endedBadly) ∧
      (u.decHalt = false → ∃ ws, u.wordOut = s.wordOut ++ ws.map .w ++ [.eos] ∧
        ((RunTrack.begin s.wordOut).decAfterAll s (is ++ [e])).decStatus u =
          .endedWell (openPayloads s.wordOut ++ ws) ∧
        ((RunTrack.begin s.wordOut).decAfterAll s (is ++ [e])).emitted u.wordOut = ws)) ∧
  (∀ (r : RunTrack) (i : Instr) (s t : State), exec i s = .next t →
    (encRole i = .reset ∨ (r.ended = true ∧ s.encHalt = false ∧ encRole i = .push ∧ t.encHalt = false) →
      (r.encAfterAll s [i]).encStatus t = .notEnded) ∧
    (decRole i = .reset ∨ (r.ended = true ∧ s.decHalt = false ∧ decRole i = .push ∧ t.decHalt = false) →
      (r.decAfterAll s [i]).decStatus t = .notEnded))

/-- Any interleaving gives the same streams: what a path does depends only on its own operations, so it is what they do
alone (R20, R59, R160). -/
def Obligations.InterleavingIsInvisible : Prop :=
  ∀ (is : List Instr) (s t : State), execAll is s = .next t →
    (∃ u, execAll (is.filter Instr.onEnc) s = .next u ∧ u.encView = t.encView) ∧
    (∃ u, execAll (is.filter Instr.onDec) s = .next u ∧ u.decView = t.decView)

/-- After a reset a path's output depends only on the operations since then and the latched bit: from two states that differ
in anything, the same operations emit the same tokens (R2, R222). -/
def Obligations.ResetErasesHistory : Prop :=
  (∀ (b : BitVec 1) (is : List Instr) (s₁ s₂ t₁ t₂ : State),
    execAll (.rstEnc b :: is) s₁ = .next t₁ → execAll (.rstEnc b :: is) s₂ = .next t₂ →
    ∃ ts, t₁.codeOut = s₁.codeOut ++ ts ∧ t₂.codeOut = s₂.codeOut ++ ts) ∧
  (∀ (is : List Instr) (s₁ s₂ t₁ t₂ : State),
    execAll (.rstDec :: is) s₁ = .next t₁ → execAll (.rstDec :: is) s₂ = .next t₂ →
    ∃ ts, t₁.wordOut = s₁.wordOut ++ ts ∧ t₂.wordOut = s₂.wordOut ++ ts)
end

