-- ==== Sys2Proof/Laws/Operands.lean ====
section
/-! SUPPORT. The fields of escape codes and of packed words: what is put into a field is read back from it, and a word is
the join of its bytes. -/

namespace Sys2Proof.Machine

@[simp] theorem lo_append (n l : Byte) : lo (n ++ l) = l := by
  unfold lo
  exact BitVec.extractLsb'_append_eq_right

@[simp] theorem hi_append (n l : Byte) : hi (n ++ l) = n := by
  unfold hi
  exact BitVec.extractLsb'_append_eq_left

/-- An escape code is its count above its sentinel byte. -/
theorem escape_eq_append (n l : Byte) : escape n l = n ++ l := by
  apply BitVec.eq_of_getLsbD_eq
  intro i hi
  rw [BitVec.getLsbD_append]
  by_cases h : i < 8
  · simp [escape, h, hi]
  · have hl : l.getLsbD i = false := BitVec.getLsbD_of_ge l i (by omega)
    simp [escape, h, hi, hl]

@[simp] theorem lo_escape (n l : Byte) : lo (escape n l) = l := by rw [escape_eq_append, lo_append]

@[simp] theorem hi_escape (n l : Byte) : hi (escape n l) = n := by rw [escape_eq_append, hi_append]

/-- A word is its high byte above its low byte. -/
theorem hi_append_lo (c : Word) : (hi c ++ lo c : Word) = c := by
  ext i hi'
  simp only [lo, hi, BitVec.getElem_append, BitVec.getElem_extractLsb']
  by_cases h : i < 8
  · simp [h, BitVec.getLsbD_eq_getElem hi']
  · simp [h, show 8 + (i - 8) = i by omega, BitVec.getLsbD_eq_getElem hi']

/-- A word whose low byte is known is the escape code of its high byte. -/
theorem escape_hi_of_lo {c : Word} {l : Byte} (h : lo c = l) : escape (hi c) l = c := by
  rw [escape_eq_append, ← h, hi_append_lo]

theorem isSentinel_false_iff (b : Byte) :
    isSentinel b = false ↔ b ≠ Config.sentZero ∧ b ≠ Config.sentFull ∧ b ≠ Config.sentGen := by
  simp [isSentinel, and_assoc]

theorem legalIntensity_iff (v : Nat) : legalIntensity v = true ↔ v ≤ 31 := by
  unfold legalIntensity Config.intensityMax
  exact decide_eq_true_iff

end Sys2Proof.Machine
end

