-- ==== Sys2Proof/Laws/Decode.lean ====
section
/-! SUPPORT. How a code is classified, one lemma per class of R82, and that a classified code is encoded as it was. -/

namespace Sys2Proof

open Machine

@[simp] theorem decodeCode_waiting (c : Word) : decodeCode true c = .grunOperand c := rfl

theorem decodeCode_zero {c : Word} (h : lo c = Config.sentZero) : decodeCode false c = .zrun (hi c) := by
  simp [decodeCode, h]

theorem decodeCode_full {c : Word} (h : lo c = Config.sentFull) : decodeCode false c = .frun (hi c) := by
  simp [decodeCode, h, show Config.sentFull ≠ Config.sentZero by decide]

theorem decodeCode_gen {c : Word} (h : lo c = Config.sentGen) : decodeCode false c = .grun (hi c) := by
  simp [decodeCode, h, show Config.sentGen ≠ Config.sentZero by decide, show Config.sentGen ≠ Config.sentFull by decide]

theorem decodeCode_literal {c : Word} (h : isSentinel (lo c) = false) : decodeCode false c = .lit c := by
  obtain ⟨h1, h2, h3⟩ := (isSentinel_false_iff _).mp h
  simp [decodeCode, h1, h2, h3]

/-- A code is in one of the four classes of R82. -/
theorem code_class (c : Word) :
    lo c = Config.sentZero ∨ lo c = Config.sentFull ∨ lo c = Config.sentGen ∨ isSentinel (lo c) = false := by
  rw [isSentinel_false_iff]
  by_cases h1 : lo c = Config.sentZero <;> by_cases h2 : lo c = Config.sentFull <;>
    by_cases h3 : lo c = Config.sentGen <;> simp [h1, h2, h3]

end Sys2Proof
end

