-- ==== Sys2Proof/Laws/State.lean ====
section
/-! SUPPORT. What each named update of the state leaves in each field: one lemma per field per update. The conditions that are
computed from one field follow it. -/

namespace Sys2Proof.Machine

variable (s : State)

/-! ### `setPk` -/

@[simp] theorem setPk_inbox (t : PkTriple) : (s.setPk t).inbox = s.inbox := rfl
@[simp] theorem setPk_pk (t : PkTriple) : (s.setPk t).pk = t := rfl
@[simp] theorem setPk_cur (t : PkTriple) : (s.setPk t).cur = s.cur := rfl
@[simp] theorem setPk_cnt (t : PkTriple) : (s.setPk t).cnt = s.cnt := rfl
@[simp] theorem setPk_dcPend (t : PkTriple) : (s.setPk t).dcPend = s.dcPend := rfl
@[simp] theorem setPk_status (t : PkTriple) : (s.setPk t).status = s.status := rfl
@[simp] theorem setPk_cfg (t : PkTriple) : (s.setPk t).cfg = s.cfg := rfl
@[simp] theorem setPk_codeOut (t : PkTriple) : (s.setPk t).codeOut = s.codeOut := rfl
@[simp] theorem setPk_wordOut (t : PkTriple) : (s.setPk t).wordOut = s.wordOut := rfl
@[simp] theorem setPk_reads (t : PkTriple) : (s.setPk t).reads = s.reads := rfl
@[simp] theorem setPk_errLen (t : PkTriple) : (s.setPk t).errLen = s.errLen := rfl
@[simp] theorem setPk_errInt (t : PkTriple) : (s.setPk t).errInt = s.errInt := rfl
@[simp] theorem setPk_errTrunc (t : PkTriple) : (s.setPk t).errTrunc = s.errTrunc := rfl
@[simp] theorem setPk_encHalt (t : PkTriple) : (s.setPk t).encHalt = s.encHalt := rfl
@[simp] theorem setPk_decHalt (t : PkTriple) : (s.setPk t).decHalt = s.decHalt := rfl
@[simp] theorem setPk_bypass (t : PkTriple) : (s.setPk t).bypass = s.bypass := rfl
@[simp] theorem setPk_dcWait (t : PkTriple) : (s.setPk t).dcWait = s.dcWait := rfl

/-! ### `setRun` -/

@[simp] theorem setRun_inbox (c : Option Word) (n : Byte) : (s.setRun c n).inbox = s.inbox := rfl
@[simp] theorem setRun_pk (c : Option Word) (n : Byte) : (s.setRun c n).pk = s.pk := rfl
@[simp] theorem setRun_cur (c : Option Word) (n : Byte) : (s.setRun c n).cur = c := rfl
@[simp] theorem setRun_cnt (c : Option Word) (n : Byte) : (s.setRun c n).cnt = n := rfl
@[simp] theorem setRun_dcPend (c : Option Word) (n : Byte) : (s.setRun c n).dcPend = s.dcPend := rfl
@[simp] theorem setRun_status (c : Option Word) (n : Byte) : (s.setRun c n).status = s.status := rfl
@[simp] theorem setRun_cfg (c : Option Word) (n : Byte) : (s.setRun c n).cfg = s.cfg := rfl
@[simp] theorem setRun_codeOut (c : Option Word) (n : Byte) : (s.setRun c n).codeOut = s.codeOut := rfl
@[simp] theorem setRun_wordOut (c : Option Word) (n : Byte) : (s.setRun c n).wordOut = s.wordOut := rfl
@[simp] theorem setRun_reads (c : Option Word) (n : Byte) : (s.setRun c n).reads = s.reads := rfl
@[simp] theorem setRun_errLen (c : Option Word) (n : Byte) : (s.setRun c n).errLen = s.errLen := rfl
@[simp] theorem setRun_errInt (c : Option Word) (n : Byte) : (s.setRun c n).errInt = s.errInt := rfl
@[simp] theorem setRun_errTrunc (c : Option Word) (n : Byte) : (s.setRun c n).errTrunc = s.errTrunc := rfl
@[simp] theorem setRun_encHalt (c : Option Word) (n : Byte) : (s.setRun c n).encHalt = s.encHalt := rfl
@[simp] theorem setRun_decHalt (c : Option Word) (n : Byte) : (s.setRun c n).decHalt = s.decHalt := rfl
@[simp] theorem setRun_bypass (c : Option Word) (n : Byte) : (s.setRun c n).bypass = s.bypass := rfl
@[simp] theorem setRun_dcWait (c : Option Word) (n : Byte) : (s.setRun c n).dcWait = s.dcWait := rfl
@[simp] theorem setRun_pkN (c : Option Word) (n : Byte) : (s.setRun c n).pkN = s.pkN := rfl

/-! ### `setDcPend` -/

@[simp] theorem setDcPend_inbox (p : Option Byte) : (s.setDcPend p).inbox = s.inbox := rfl
@[simp] theorem setDcPend_pk (p : Option Byte) : (s.setDcPend p).pk = s.pk := rfl
@[simp] theorem setDcPend_cur (p : Option Byte) : (s.setDcPend p).cur = s.cur := rfl
@[simp] theorem setDcPend_cnt (p : Option Byte) : (s.setDcPend p).cnt = s.cnt := rfl
@[simp] theorem setDcPend_dcPend (p : Option Byte) : (s.setDcPend p).dcPend = p := rfl
@[simp] theorem setDcPend_status (p : Option Byte) : (s.setDcPend p).status = s.status := rfl
@[simp] theorem setDcPend_cfg (p : Option Byte) : (s.setDcPend p).cfg = s.cfg := rfl
@[simp] theorem setDcPend_codeOut (p : Option Byte) : (s.setDcPend p).codeOut = s.codeOut := rfl
@[simp] theorem setDcPend_wordOut (p : Option Byte) : (s.setDcPend p).wordOut = s.wordOut := rfl
@[simp] theorem setDcPend_reads (p : Option Byte) : (s.setDcPend p).reads = s.reads := rfl
@[simp] theorem setDcPend_errLen (p : Option Byte) : (s.setDcPend p).errLen = s.errLen := rfl
@[simp] theorem setDcPend_errInt (p : Option Byte) : (s.setDcPend p).errInt = s.errInt := rfl
@[simp] theorem setDcPend_errTrunc (p : Option Byte) : (s.setDcPend p).errTrunc = s.errTrunc := rfl
@[simp] theorem setDcPend_encHalt (p : Option Byte) : (s.setDcPend p).encHalt = s.encHalt := rfl
@[simp] theorem setDcPend_decHalt (p : Option Byte) : (s.setDcPend p).decHalt = s.decHalt := rfl
@[simp] theorem setDcPend_bypass (p : Option Byte) : (s.setDcPend p).bypass = s.bypass := rfl
@[simp] theorem setDcPend_pkN (p : Option Byte) : (s.setDcPend p).pkN = s.pkN := rfl

/-! ### `setStatus` -/

@[simp] theorem setStatus_inbox (v : BitVec 3) : (s.setStatus v).inbox = s.inbox := rfl
@[simp] theorem setStatus_pk (v : BitVec 3) : (s.setStatus v).pk = s.pk := rfl
@[simp] theorem setStatus_cur (v : BitVec 3) : (s.setStatus v).cur = s.cur := rfl
@[simp] theorem setStatus_cnt (v : BitVec 3) : (s.setStatus v).cnt = s.cnt := rfl
@[simp] theorem setStatus_dcPend (v : BitVec 3) : (s.setStatus v).dcPend = s.dcPend := rfl
@[simp] theorem setStatus_status (v : BitVec 3) : (s.setStatus v).status = v := rfl
@[simp] theorem setStatus_cfg (v : BitVec 3) : (s.setStatus v).cfg = s.cfg := rfl
@[simp] theorem setStatus_codeOut (v : BitVec 3) : (s.setStatus v).codeOut = s.codeOut := rfl
@[simp] theorem setStatus_wordOut (v : BitVec 3) : (s.setStatus v).wordOut = s.wordOut := rfl
@[simp] theorem setStatus_reads (v : BitVec 3) : (s.setStatus v).reads = s.reads := rfl
@[simp] theorem setStatus_bypass (v : BitVec 3) : (s.setStatus v).bypass = s.bypass := rfl
@[simp] theorem setStatus_dcWait (v : BitVec 3) : (s.setStatus v).dcWait = s.dcWait := rfl
@[simp] theorem setStatus_pkN (v : BitVec 3) : (s.setStatus v).pkN = s.pkN := rfl

/-! ### `setCfg` -/

@[simp] theorem setCfg_inbox (b : BitVec 1) : (s.setCfg b).inbox = s.inbox := rfl
@[simp] theorem setCfg_pk (b : BitVec 1) : (s.setCfg b).pk = s.pk := rfl
@[simp] theorem setCfg_cur (b : BitVec 1) : (s.setCfg b).cur = s.cur := rfl
@[simp] theorem setCfg_cnt (b : BitVec 1) : (s.setCfg b).cnt = s.cnt := rfl
@[simp] theorem setCfg_dcPend (b : BitVec 1) : (s.setCfg b).dcPend = s.dcPend := rfl
@[simp] theorem setCfg_status (b : BitVec 1) : (s.setCfg b).status = s.status := rfl
@[simp] theorem setCfg_cfg (b : BitVec 1) : (s.setCfg b).cfg = b := rfl
@[simp] theorem setCfg_codeOut (b : BitVec 1) : (s.setCfg b).codeOut = s.codeOut := rfl
@[simp] theorem setCfg_wordOut (b : BitVec 1) : (s.setCfg b).wordOut = s.wordOut := rfl
@[simp] theorem setCfg_reads (b : BitVec 1) : (s.setCfg b).reads = s.reads := rfl
@[simp] theorem setCfg_errLen (b : BitVec 1) : (s.setCfg b).errLen = s.errLen := rfl
@[simp] theorem setCfg_errInt (b : BitVec 1) : (s.setCfg b).errInt = s.errInt := rfl
@[simp] theorem setCfg_errTrunc (b : BitVec 1) : (s.setCfg b).errTrunc = s.errTrunc := rfl
@[simp] theorem setCfg_encHalt (b : BitVec 1) : (s.setCfg b).encHalt = s.encHalt := rfl
@[simp] theorem setCfg_decHalt (b : BitVec 1) : (s.setCfg b).decHalt = s.decHalt := rfl
@[simp] theorem setCfg_dcWait (b : BitVec 1) : (s.setCfg b).dcWait = s.dcWait := rfl
@[simp] theorem setCfg_pkN (b : BitVec 1) : (s.setCfg b).pkN = s.pkN := rfl

/-! ### `emitCode` -/

@[simp] theorem emitCode_inbox (ts : List OutToken) : (s.emitCode ts).inbox = s.inbox := rfl
@[simp] theorem emitCode_pk (ts : List OutToken) : (s.emitCode ts).pk = s.pk := rfl
@[simp] theorem emitCode_cur (ts : List OutToken) : (s.emitCode ts).cur = s.cur := rfl
@[simp] theorem emitCode_cnt (ts : List OutToken) : (s.emitCode ts).cnt = s.cnt := rfl
@[simp] theorem emitCode_dcPend (ts : List OutToken) : (s.emitCode ts).dcPend = s.dcPend := rfl
@[simp] theorem emitCode_status (ts : List OutToken) : (s.emitCode ts).status = s.status := rfl
@[simp] theorem emitCode_cfg (ts : List OutToken) : (s.emitCode ts).cfg = s.cfg := rfl
@[simp] theorem emitCode_codeOut (ts : List OutToken) : (s.emitCode ts).codeOut = s.codeOut ++ ts := rfl
@[simp] theorem emitCode_wordOut (ts : List OutToken) : (s.emitCode ts).wordOut = s.wordOut := rfl
@[simp] theorem emitCode_reads (ts : List OutToken) : (s.emitCode ts).reads = s.reads := rfl
@[simp] theorem emitCode_errLen (ts : List OutToken) : (s.emitCode ts).errLen = s.errLen := rfl
@[simp] theorem emitCode_errInt (ts : List OutToken) : (s.emitCode ts).errInt = s.errInt := rfl
@[simp] theorem emitCode_errTrunc (ts : List OutToken) : (s.emitCode ts).errTrunc = s.errTrunc := rfl
@[simp] theorem emitCode_encHalt (ts : List OutToken) : (s.emitCode ts).encHalt = s.encHalt := rfl
@[simp] theorem emitCode_decHalt (ts : List OutToken) : (s.emitCode ts).decHalt = s.decHalt := rfl
@[simp] theorem emitCode_bypass (ts : List OutToken) : (s.emitCode ts).bypass = s.bypass := rfl
@[simp] theorem emitCode_dcWait (ts : List OutToken) : (s.emitCode ts).dcWait = s.dcWait := rfl
@[simp] theorem emitCode_pkN (ts : List OutToken) : (s.emitCode ts).pkN = s.pkN := rfl

/-! ### `emitWord` -/

@[simp] theorem emitWord_inbox (ts : List OutToken) : (s.emitWord ts).inbox = s.inbox := rfl
@[simp] theorem emitWord_pk (ts : List OutToken) : (s.emitWord ts).pk = s.pk := rfl
@[simp] theorem emitWord_cur (ts : List OutToken) : (s.emitWord ts).cur = s.cur := rfl
@[simp] theorem emitWord_cnt (ts : List OutToken) : (s.emitWord ts).cnt = s.cnt := rfl
@[simp] theorem emitWord_dcPend (ts : List OutToken) : (s.emitWord ts).dcPend = s.dcPend := rfl
@[simp] theorem emitWord_status (ts : List OutToken) : (s.emitWord ts).status = s.status := rfl
@[simp] theorem emitWord_cfg (ts : List OutToken) : (s.emitWord ts).cfg = s.cfg := rfl
@[simp] theorem emitWord_codeOut (ts : List OutToken) : (s.emitWord ts).codeOut = s.codeOut := rfl
@[simp] theorem emitWord_wordOut (ts : List OutToken) : (s.emitWord ts).wordOut = s.wordOut ++ ts := rfl
@[simp] theorem emitWord_reads (ts : List OutToken) : (s.emitWord ts).reads = s.reads := rfl
@[simp] theorem emitWord_errLen (ts : List OutToken) : (s.emitWord ts).errLen = s.errLen := rfl
@[simp] theorem emitWord_errInt (ts : List OutToken) : (s.emitWord ts).errInt = s.errInt := rfl
@[simp] theorem emitWord_errTrunc (ts : List OutToken) : (s.emitWord ts).errTrunc = s.errTrunc := rfl
@[simp] theorem emitWord_encHalt (ts : List OutToken) : (s.emitWord ts).encHalt = s.encHalt := rfl
@[simp] theorem emitWord_decHalt (ts : List OutToken) : (s.emitWord ts).decHalt = s.decHalt := rfl
@[simp] theorem emitWord_bypass (ts : List OutToken) : (s.emitWord ts).bypass = s.bypass := rfl
@[simp] theorem emitWord_dcWait (ts : List OutToken) : (s.emitWord ts).dcWait = s.dcWait := rfl
@[simp] theorem emitWord_pkN (ts : List OutToken) : (s.emitWord ts).pkN = s.pkN := rfl

/-! ### `answer` -/

@[simp] theorem answer_inbox (r : HostRead) : (s.answer r).inbox = s.inbox := rfl
@[simp] theorem answer_pk (r : HostRead) : (s.answer r).pk = s.pk := rfl
@[simp] theorem answer_cur (r : HostRead) : (s.answer r).cur = s.cur := rfl
@[simp] theorem answer_cnt (r : HostRead) : (s.answer r).cnt = s.cnt := rfl
@[simp] theorem answer_dcPend (r : HostRead) : (s.answer r).dcPend = s.dcPend := rfl
@[simp] theorem answer_status (r : HostRead) : (s.answer r).status = s.status := rfl
@[simp] theorem answer_cfg (r : HostRead) : (s.answer r).cfg = s.cfg := rfl
@[simp] theorem answer_codeOut (r : HostRead) : (s.answer r).codeOut = s.codeOut := rfl
@[simp] theorem answer_wordOut (r : HostRead) : (s.answer r).wordOut = s.wordOut := rfl
@[simp] theorem answer_reads (r : HostRead) : (s.answer r).reads = s.reads ++ [r] := rfl
@[simp] theorem answer_errLen (r : HostRead) : (s.answer r).errLen = s.errLen := rfl
@[simp] theorem answer_errInt (r : HostRead) : (s.answer r).errInt = s.errInt := rfl
@[simp] theorem answer_errTrunc (r : HostRead) : (s.answer r).errTrunc = s.errTrunc := rfl
@[simp] theorem answer_encHalt (r : HostRead) : (s.answer r).encHalt = s.encHalt := rfl
@[simp] theorem answer_decHalt (r : HostRead) : (s.answer r).decHalt = s.decHalt := rfl
@[simp] theorem answer_bypass (r : HostRead) : (s.answer r).bypass = s.bypass := rfl
@[simp] theorem answer_dcWait (r : HostRead) : (s.answer r).dcWait = s.dcWait := rfl
@[simp] theorem answer_pkN (r : HostRead) : (s.answer r).pkN = s.pkN := rfl

/-! ### `setInbox` -/

@[simp] theorem setInbox_inbox (es : List HostEvent) : (s.setInbox es).inbox = es := rfl
@[simp] theorem setInbox_pk (es : List HostEvent) : (s.setInbox es).pk = s.pk := rfl
@[simp] theorem setInbox_cur (es : List HostEvent) : (s.setInbox es).cur = s.cur := rfl
@[simp] theorem setInbox_cnt (es : List HostEvent) : (s.setInbox es).cnt = s.cnt := rfl
@[simp] theorem setInbox_dcPend (es : List HostEvent) : (s.setInbox es).dcPend = s.dcPend := rfl
@[simp] theorem setInbox_status (es : List HostEvent) : (s.setInbox es).status = s.status := rfl
@[simp] theorem setInbox_cfg (es : List HostEvent) : (s.setInbox es).cfg = s.cfg := rfl
@[simp] theorem setInbox_codeOut (es : List HostEvent) : (s.setInbox es).codeOut = s.codeOut := rfl
@[simp] theorem setInbox_wordOut (es : List HostEvent) : (s.setInbox es).wordOut = s.wordOut := rfl
@[simp] theorem setInbox_reads (es : List HostEvent) : (s.setInbox es).reads = s.reads := rfl
@[simp] theorem setInbox_errLen (es : List HostEvent) : (s.setInbox es).errLen = s.errLen := rfl
@[simp] theorem setInbox_errInt (es : List HostEvent) : (s.setInbox es).errInt = s.errInt := rfl
@[simp] theorem setInbox_errTrunc (es : List HostEvent) : (s.setInbox es).errTrunc = s.errTrunc := rfl
@[simp] theorem setInbox_encHalt (es : List HostEvent) : (s.setInbox es).encHalt = s.encHalt := rfl
@[simp] theorem setInbox_decHalt (es : List HostEvent) : (s.setInbox es).decHalt = s.decHalt := rfl
@[simp] theorem setInbox_bypass (es : List HostEvent) : (s.setInbox es).bypass = s.bypass := rfl
@[simp] theorem setInbox_dcWait (es : List HostEvent) : (s.setInbox es).dcWait = s.dcWait := rfl
@[simp] theorem setInbox_pkN (es : List HostEvent) : (s.setInbox es).pkN = s.pkN := rfl

/-! ### Updates that write nothing new -/

@[simp] theorem emitCode_nil : s.emitCode [] = s := by simp [State.emitCode]
@[simp] theorem emitWord_nil : s.emitWord [] = s := by simp [State.emitWord]

end Sys2Proof.Machine
end

