-- ==== Sys2Proof/Laws/Ops.lean ====
section
/-! SUPPORT. What each shared operation can do, said once: later proofs cite these and do not unfold the operations. -/

namespace Sys2Proof.Machine

variable {s t : State}

/-! ### Sequencing and halts -/

@[simp] theorem andThen_next (s : State) (k : State → Host.Outcome State Fault Refusal) :
    andThen (.next s) k = k s := rfl

/-- A two-part step answers a next state only through a next state of its first part. -/
theorem andThen_eq_next {o : Host.Outcome State Fault Refusal} {k : State → Host.Outcome State Fault Refusal} :
    andThen o k = .next t ↔ ∃ s, o = .next s ∧ k s = .next t := by
  cases o <;> simp [andThen]

@[simp] theorem encOp_of_halted (k : State → Host.Outcome State Fault Refusal) (h : s.encHalt = true) :
    encOp k s = .next s := by simp [encOp, h]

@[simp] theorem encOp_of_running (k : State → Host.Outcome State Fault Refusal) (h : s.encHalt = false) :
    encOp k s = k s := by simp [encOp, h]

@[simp] theorem decOp_of_halted (k : State → State) (h : s.decHalt = true) : decOp k s = .next s := by
  simp [decOp, h]

@[simp] theorem decOp_of_running (k : State → State) (h : s.decHalt = false) : decOp k s = .next (k s) := by
  simp [decOp, h]

/-- An ENC operation that answers `next t` either was ignored or ran on a path that is not halted. -/
theorem encOp_eq_next {k : State → Host.Outcome State Fault Refusal} (h : encOp k s = .next t) :
    (s.encHalt = true ∧ t = s) ∨ (s.encHalt = false ∧ k s = .next t) := by
  cases hh : s.encHalt <;> simp [hh] at h ⊢ <;> simp [h]

/-- A DEC operation always completes: ignored, or run on a path that is not halted. -/
theorem decOp_eq_next {k : State → State} (h : decOp k s = .next t) :
    (s.decHalt = true ∧ t = s) ∨ (s.decHalt = false ∧ t = k s) := by
  cases hh : s.decHalt <;> simp [hh] at h ⊢ <;> simp [h]

/-! ### Flags -/

@[simp] theorem raise_length (s : State) : raise .invalidInputLength s = s.setStatus (s.status ||| 0b001#3) := rfl

@[simp] theorem raise_intensity (s : State) : raise .invalidIntensity s = s.setStatus (s.status ||| 0b010#3) := rfl

@[simp] theorem raise_truncated (s : State) : raise .truncatedStream s = s.setStatus (s.status ||| 0b100#3) := rfl

/-- The flags after a fault or a reset, from the flags before. -/
theorem status_bits : ∀ v : BitVec 3,
    ((v ||| 1#3).getLsbD 0 = true ∧ (v ||| 1#3).getLsbD 1 = v.getLsbD 1 ∧ (v ||| 1#3).getLsbD 2 = v.getLsbD 2) ∧
    ((v ||| 2#3).getLsbD 0 = v.getLsbD 0 ∧ (v ||| 2#3).getLsbD 1 = true ∧ (v ||| 2#3).getLsbD 2 = v.getLsbD 2) ∧
    ((v ||| 4#3).getLsbD 0 = v.getLsbD 0 ∧ (v ||| 4#3).getLsbD 1 = v.getLsbD 1 ∧ (v ||| 4#3).getLsbD 2 = true) ∧
    ((v &&& 4#3).getLsbD 0 = false ∧ (v &&& 4#3).getLsbD 1 = false ∧ (v &&& 4#3).getLsbD 2 = v.getLsbD 2) ∧
    ((v &&& 3#3).getLsbD 0 = v.getLsbD 0 ∧ (v &&& 3#3).getLsbD 1 = v.getLsbD 1 ∧ (v &&& 3#3).getLsbD 2 = false) := by
  decide

/-! ### The Compressor's run -/

@[simp] theorem finPending_zero (cur : Option Word) : finPending cur 0#8 = [] := by cases cur <;> rfl

@[simp] theorem finPending_none (cnt : Byte) : finPending none cnt = [] := rfl

theorem finPending_some {cnt : Byte} (v : Word) (h : cnt ≠ 0#8) : finPending (some v) cnt = finCodes v cnt := by
  simp [finPending, h]

/-- Under R26 closing the run always completes: it emits the codes of the pending run and changes nothing else. -/
theorem closeRun_of_runValue (h : s.cur = none → s.cnt = 0#8) :
    closeRun s = .next (s.emitCode ((finPending s.cur s.cnt).map .w)) := by
  unfold closeRun
  by_cases hc : s.cnt = 0#8
  · simp [hc]
  · cases hv : s.cur with
    | none => exact absurd (h hv) hc
    | some v => simp [hc, finPending_some v hc]

/-- Closing the run completes only when there is a value or nothing to close. -/
theorem closeRun_eq_next (h : closeRun s = .next t) :
    (s.cur = none → s.cnt = 0#8) ∧ t = s.emitCode ((finPending s.cur s.cnt).map .w) := by
  have hr : s.cur = none → s.cnt = 0#8 := by
    intro hv
    by_contra hc
    simp [closeRun, hc, hv] at h
  rw [closeRun_of_runValue hr] at h
  exact ⟨hr, by simpa using h.symm⟩

/-- An outcome that is no refusal, and a fault only in a state without a value for a run of length other than 0. -/
abbrev StopsOnlyWithoutValue (s : State) (o : Host.Outcome State Fault Refusal) : Prop :=
  (∀ r, o ≠ .refused r) ∧ ∀ f, o = .fault f → f = .finalizeNone ∧ s.cur = none ∧ s.cnt ≠ 0#8

theorem next_stops (s t : State) : StopsOnlyWithoutValue s (.next t) := by simp [StopsOnlyWithoutValue]

theorem andThen_stops {o : Host.Outcome State Fault Refusal} {k : State → State} (h : StopsOnlyWithoutValue s o) :
    StopsOnlyWithoutValue s (andThen o fun u => .next (k u)) := by
  cases o with
  | next u => exact next_stops s (k u)
  | fault f => exact h
  | refused r => exact h

theorem closeRun_stops : StopsOnlyWithoutValue s (closeRun s) := by
  unfold closeRun
  by_cases hc : s.cnt = 0#8
  · rw [if_pos hc]; exact next_stops s s
  · cases hv : s.cur with
    | none => rw [if_neg hc]; exact ⟨by simp, fun f _ => ⟨by cases f; rfl, hv, hc⟩⟩
    | some v => rw [if_neg hc]; exact next_stops s _

theorem extendsRun_iff (w : Word) (cur : Option Word) (cnt : Byte) :
    extendsRun w cur cnt = true ↔ cnt ≠ 0#8 ∧ cur = some w ∧ cnt < 255#8 := by
  simp only [extendsRun, Bool.and_eq_true, decide_eq_true_eq, and_assoc]
  exact Iff.rfl

/-- What `CP.PUSH w` can do on a path that is not halted: emit the word in bypass, lengthen the run, or close it. -/
theorem takeWord_eq_next {w : Word} (h : takeWord w s = .next t) :
    (s.bypass = true ∧ t = s.emitCode [.w w]) ∨
    (s.bypass = false ∧ extendsRun w s.cur s.cnt = true ∧ t = s.setRun s.cur (s.cnt + 1#8)) ∨
    (s.bypass = false ∧ extendsRun w s.cur s.cnt = false ∧ (s.cur = none → s.cnt = 0#8) ∧
      t = (s.emitCode ((finPending s.cur s.cnt).map .w)).setRun (some w) 1#8) := by
  unfold takeWord at h
  cases hb : s.bypass
  · cases he : extendsRun w s.cur s.cnt
    · simp only [hb, he, Bool.false_eq_true, if_false, andThen_eq_next] at h
      obtain ⟨u, hu, ht⟩ := h
      obtain ⟨hr, rfl⟩ := closeRun_eq_next hu
      refine .inr (.inr ⟨rfl, rfl, hr, ?_⟩)
      simpa using ht.symm
    · simp only [hb, he, Bool.false_eq_true, if_false, if_true] at h
      exact .inr (.inl ⟨rfl, rfl, by simpa using h.symm⟩)
  · simp only [hb, if_true] at h
    exact .inl ⟨rfl, by simpa using h.symm⟩

/-- What `CP.END` does on a path that is not halted. -/
theorem endWords_eq_next (h : endWords s = .next t) :
    (s.cur = none → s.cnt = 0#8) ∧
    t = ((s.emitCode ((finPending s.cur s.cnt).map .w)).setRun none 0#8).emitCode [.eos] := by
  simp only [endWords, andThen_eq_next] at h
  obtain ⟨u, hu, ht⟩ := h
  obtain ⟨hr, rfl⟩ := closeRun_eq_next hu
  exact ⟨hr, by simpa using ht.symm⟩

/-- Under R26 `CP.END` completes. -/
theorem endWords_of_runValue (h : s.cur = none → s.cnt = 0#8) :
    endWords s = .next (((s.emitCode ((finPending s.cur s.cnt).map .w)).setRun none 0#8).emitCode [.eos]) := by
  simp [endWords, closeRun_of_runValue h]

/-- Under R26 a word that does not extend the run closes it, and that completes. -/
theorem takeWord_of_runValue {w : Word} (h : s.cur = none → s.cnt = 0#8) (hb : s.bypass = false)
    (he : extendsRun w s.cur s.cnt = false) :
    takeWord w s = .next ((s.emitCode ((finPending s.cur s.cnt).map .w)).setRun (some w) 1#8) := by
  simp [takeWord, hb, he, closeRun_of_runValue h]

/-- The Compressor stops only where closing a run does. -/
theorem takeWord_stops {w : Word} : StopsOnlyWithoutValue s (takeWord w s) := by
  unfold takeWord
  cases s.bypass <;> cases extendsRun w s.cur s.cnt
  · exact andThen_stops closeRun_stops
  · exact next_stops s _
  · exact next_stops s _
  · exact next_stops s _

theorem endWords_stops : StopsOnlyWithoutValue s (endWords s) :=
  andThen_stops (k := fun t => (t.setRun none 0#8).emitCode [.eos]) closeRun_stops

/-! ### The Decoder's codes -/

@[simp] theorem orOperand_waiting {n : Byte} (c : Word) (k : State → State) (h : s.dcPend = some n) :
    orOperand c k s = (emitCopies c n s).setDcPend none := by simp [orOperand, h]

@[simp] theorem orOperand_escapePosition (c : Word) (k : State → State) (h : s.dcPend = none) :
    orOperand c k s = k s := by simp [orOperand, h]

theorem escapePosition_zero {c : Word} (h : lo c = Config.sentZero) (s : State) :
    escapePosition c s = emitCopies Config.vZero (hi c) s := by
  simp [escapePosition, h]

theorem escapePosition_full {c : Word} (h : lo c = Config.sentFull) (s : State) :
    escapePosition c s = emitCopies Config.vFull (hi c) s := by
  simp [escapePosition, h, show Config.sentFull ≠ Config.sentZero by decide]

theorem escapePosition_gen {c : Word} (h : lo c = Config.sentGen) (s : State) :
    escapePosition c s = s.setDcPend (some (hi c)) := by
  simp [escapePosition, h, show Config.sentGen ≠ Config.sentZero by decide,
    show Config.sentGen ≠ Config.sentFull by decide]

theorem escapePosition_literal {c : Word} (h : isSentinel (lo c) = false) (s : State) :
    escapePosition c s = s.emitWord [.w c] := by
  obtain ⟨h1, h2, h3⟩ := (isSentinel_false_iff _).mp h
  simp [escapePosition, h1, h2, h3]

/-- What a code can do in escape position: append words of one value, at most 255, or record a count. -/
theorem escapePosition_cases (c : Word) (s : State) :
    (∃ (v : Word) (n : Nat), n ≤ 255 ∧ escapePosition c s = s.emitWord (List.replicate n (.w v))) ∨
    (lo c = Config.sentGen ∧ escapePosition c s = s.setDcPend (some (hi c))) := by
  have hn : (hi c).toNat ≤ 255 := by have := (hi c).isLt; omega
  unfold escapePosition
  split
  · exact .inl ⟨_, _, hn, rfl⟩
  · split
    · exact .inl ⟨_, _, hn, rfl⟩
    · split
      · exact .inr ⟨‹_›, rfl⟩
      · exact .inl ⟨c, 1, by omega, rfl⟩

end Sys2Proof.Machine
end

