-- ==== Sys2Proof/Laws/Exec.lean ====
section
/-! SUPPORT. What one operation can do, said once (`exec_eq_next`): every case of a next state, with the state it leaves.
Invariants, frames and laws about all operations are read off these cases. -/

namespace Sys2Proof.Machine

variable {s t : State}

/-- The pending run is sound: R26, and nothing is pending in bypass (R131). -/
abbrev State.RunSound (s : State) : Prop := (s.cur = none ↔ s.cnt = 0#8) ∧ (s.bypass = true → s.cnt = 0#8)

/-- The length of a run that is extended does not wrap to 0 (R10, R25). -/
theorem cnt_succ_ne_zero {n : Byte} (h : n < 255#8) : n + 1#8 ≠ 0#8 := by
  intro h0
  have h1 := congrArg BitVec.toNat h0
  have h2 : n.toNat < 255 := h
  rw [BitVec.toNat_add] at h1
  simp at h1
  omega

/-- The Compressor's part of an ENC operation that is not ignored: some run, some tokens appended, nothing else. -/
theorem takeWord_effect {w : Word} (h : takeWord w s = .next t) :
    ∃ cur cnt ts, t = (s.setRun cur cnt).emitCode ts ∧ (s.RunSound → t.RunSound) := by
  rcases takeWord_eq_next h with ⟨hb, rfl⟩ | ⟨hb, he, rfl⟩ | ⟨hb, he, hr, rfl⟩
  · exact ⟨s.cur, s.cnt, _, rfl, id⟩
  · refine ⟨s.cur, s.cnt + 1#8, [], by simp, fun _ => ?_⟩
    obtain ⟨-, hv, hlt⟩ := (extendsRun_iff _ _ _).mp he
    exact ⟨by simp [hv, cnt_succ_ne_zero hlt], by simp [hb]⟩
  · exact ⟨some w, 1#8, _, rfl, fun _ => ⟨by simp, by simp [hb]⟩⟩

theorem endWords_effect (h : endWords s = .next t) :
    ∃ ts, t = (s.setRun none 0#8).emitCode (ts ++ [.eos]) ∧ t.RunSound := by
  obtain ⟨-, rfl⟩ := endWords_eq_next h
  exact ⟨(finPending s.cur s.cnt).map .w, by simp [State.emitCode, State.setRun],
    by simp [State.RunSound]⟩

/-- The shape of a next state of an ENC operation that is not ignored and takes no fault. -/
abbrev EncEffect (s t : State) : Prop :=
  s.encHalt = false ∧
  ∃ pk cur cnt ts, t = ((s.setPk pk).setRun cur cnt).emitCode ts ∧ (s.RunSound → t.RunSound)

/-- The shape of a next state of a DEC operation that is not ignored and takes no fault. -/
abbrev DecEffect (s t : State) : Prop :=
  s.decHalt = false ∧ ∃ p ts, t = (s.setDcPend p).emitWord ts

theorem compressorPush_effect {w : Word} (hh : s.encHalt = false) (h : compressorPush w s = .next t) :
    EncEffect s t := by
  rw [compressorPush, encOp_of_running _ hh] at h
  obtain ⟨cur, cnt, ts, ht, hs⟩ := takeWord_effect h
  exact ⟨hh, s.pk, cur, cnt, ts, ht, hs⟩

theorem compressorEnd_effect (hh : s.encHalt = false) (h : compressorEnd s = .next t) : EncEffect s t := by
  rw [compressorEnd, encOp_of_running _ hh] at h
  obtain ⟨ts, ht, hs⟩ := endWords_effect h
  exact ⟨hh, s.pk, none, 0#8, _, ht, fun _ => hs⟩

/-- A next state of `PK.PUSH`: ignored, the intensity fault, or a lane filled with what CP does of it. -/
theorem execPkPush_eq_next {v : Nat} (h : execPkPush v s = .next t) :
    (s.encHalt = true ∧ t = s) ∨
    (s.encHalt = false ∧ 31 < v ∧ t = s.setStatus (s.status ||| 0b010#3)) ∨
    (v ≤ 31 ∧ EncEffect s t ∧ t.pkN = (s.pkN + 1) % 3) := by
  unfold execPkPush at h
  rcases encOp_eq_next h with h | ⟨hh, hk⟩
  · exact .inl h
  · right
    cases hv : legalIntensity v
    · have h31 : 31 < v := by
        by_contra hc
        rw [(legalIntensity_iff v).mpr (by omega)] at hv
        contradiction
      simp only [hv, Bool.false_eq_true, if_false, Host.Outcome.next.injEq] at hk
      exact .inl ⟨hh, h31, by simpa using hk.symm⟩
    · refine .inr ⟨(legalIntensity_iff v).mp hv, ?_⟩
      simp only [hv, if_true] at hk
      cases hp : s.pk with
      | empty =>
        simp only [hp, Host.Outcome.next.injEq] at hk
        subst hk
        exact ⟨⟨hh, .one (laneOf v), s.cur, s.cnt, [], by simp [State.setRun, State.setPk], id⟩, by simp [State.pkN, hp]⟩
      | one b0 =>
        simp only [hp, Host.Outcome.next.injEq] at hk
        subst hk
        exact ⟨⟨hh, .two b0 (laneOf v), s.cur, s.cnt, [], by simp [State.setRun, State.setPk], id⟩,
          by simp [State.pkN, hp]⟩
      | two b0 b1 =>
        simp only [hp] at hk
        rw [compressorPush, encOp_of_running _ (by simpa using hh)] at hk
        obtain ⟨cur, cnt, ts, ht, hs⟩ := takeWord_effect hk
        exact ⟨⟨hh, .empty, cur, cnt, ts, ht, hs⟩, by simp [ht, State.pkN, hp]⟩

/-- A next state of `PK.END`: ignored, the length fault, or the end of CP's sequence. -/
theorem execPkEnd_eq_next (h : execPkEnd s = .next t) :
    (s.encHalt = true ∧ t = s) ∨
    (s.encHalt = false ∧ s.pkN ≠ 0 ∧ t = s.setStatus (s.status ||| 0b001#3)) ∨
    (s.encHalt = false ∧ s.pk = .empty ∧ endWords s = .next t) := by
  unfold execPkEnd at h
  rcases encOp_eq_next h with h | ⟨hh, hk⟩
  · exact .inl h
  · right
    cases hp : s.pk with
    | empty =>
      simp only [hp, compressorEnd, encOp_of_running _ hh] at hk
      exact .inr ⟨hh, rfl, hk⟩
    | one b0 =>
      simp only [hp, Host.Outcome.next.injEq] at hk
      exact .inl ⟨hh, by simp [State.pkN, hp], by simpa using hk.symm⟩
    | two b0 b1 =>
      simp only [hp, Host.Outcome.next.injEq] at hk
      exact .inl ⟨hh, by simp [State.pkN, hp], by simpa using hk.symm⟩

/-- A code that is not ignored: the operand of a pending run, or the effect it has in escape position. -/
theorem orOperand_effect {c : Word} {k : State → State} (hh : s.decHalt = false)
    (hk : ∃ p ts, k s = (s.setDcPend p).emitWord ts) : DecEffect s (orOperand c k s) := by
  cases hd : s.dcPend with
  | none => rw [orOperand_escapePosition c k hd]; exact ⟨hh, hk⟩
  | some n => exact ⟨hh, none, List.replicate n.toNat (.w c), by simp [orOperand, hd, emitCopies, State.setDcPend, State.emitWord]⟩

theorem emitWord_effect (ts : List OutToken) : ∃ p us, s.emitWord ts = (s.setDcPend p).emitWord us :=
  ⟨s.dcPend, ts, rfl⟩

theorem escapePosition_effect (c : Word) : ∃ p ts, escapePosition c s = (s.setDcPend p).emitWord ts := by
  rcases escapePosition_cases c s with ⟨v, n, -, h⟩ | ⟨-, h⟩
  · exact h ▸ emitWord_effect _
  · exact ⟨some (hi c), [], by simp [h]⟩

/-- A next state of `DC.END`: ignored, the truncation fault, or `EOS`. -/
theorem execDcEnd_eq_next (h : execDcEnd s = .next t) :
    (s.decHalt = true ∧ t = s) ∨
    (s.decHalt = false ∧ s.dcWait = true ∧ t = s.setStatus (s.status ||| 0b100#3)) ∨
    (s.decHalt = false ∧ s.dcWait = false ∧ t = s.emitWord [.eos]) := by
  rcases decOp_eq_next h with h | ⟨hh, rfl⟩
  · exact .inl h
  · cases hw : s.dcWait <;> simp [hh]

/-- The cases of a next state, over all operations. -/
inductive ExecCase (i : Instr) (s t : State) : Prop where
  | encIgnored (_ : i.onEnc = true) (_ : i.isReset = false) (_ : s.encHalt = true) (_ : t = s)
  | decIgnored (_ : i.onDec = true) (_ : i.isReset = false) (_ : s.decHalt = true) (_ : t = s)
  | encEffect (_ : i.onEnc = true) (_ : i.onDec = false) (_ : i.isReset = false) (_ : EncEffect s t)
  | decEffect (_ : i.onDec = true) (_ : i.onEnc = false) (_ : i.isReset = false) (_ : DecEffect s t)
  | lengthFault (_ : i = .pkEnd) (_ : s.encHalt = false) (_ : s.pkN ≠ 0) (_ : t = s.setStatus (s.status ||| 0b001#3))
  | intensityFault (v : Nat) (_ : i = .pkPush v) (_ : 31 < v) (_ : s.encHalt = false)
      (_ : t = s.setStatus (s.status ||| 0b010#3))
  | truncatedFault (_ : i = .dcEnd) (_ : s.decHalt = false) (_ : s.dcWait = true)
      (_ : t = s.setStatus (s.status ||| 0b100#3))
  | resetEnc (b : BitVec 1) (_ : i = .rstEnc b) (_ : t = resetEnc b s)
  | resetDec (_ : i = .rstDec) (_ : t = resetDec s)
  | resetAll (b : BitVec 1) (_ : i = .rstAll b) (_ : t = Machine.resetDec (Machine.resetEnc b s))
  | read (r : HostRead) (_ : i = .statusRd ∨ i = .cfgRd) (_ : t = s.answer r)

/-- A code row or `DC.PUSH` that answers a next state. -/
theorem decOp_case {i : Instr} {k : State → State} (hd : i.onDec = true) (he : i.onEnc = false) (hr : i.isReset = false)
    (hk : s.decHalt = false → DecEffect s (k s)) (h : decOp k s = .next t) : ExecCase i s t := by
  rcases decOp_eq_next h with ⟨hh, ht⟩ | ⟨hh, rfl⟩
  · exact .decIgnored hd hr hh ht
  · exact .decEffect hd he hr (hk hh)

/-- What one operation can do. -/
theorem exec_eq_next {i : Instr} (h : exec i s = .next t) : ExecCase i s t := by
  cases i with
  | zrun n => exact decOp_case rfl rfl rfl (fun hh => orOperand_effect hh (emitWord_effect _)) h
  | frun n => exact decOp_case rfl rfl rfl (fun hh => orOperand_effect hh (emitWord_effect _)) h
  | grun n => exact decOp_case rfl rfl rfl (fun hh => orOperand_effect hh ⟨some n, [], by simp⟩) h
  | grunOperand v => exact decOp_case rfl rfl rfl (fun hh => orOperand_effect hh (escapePosition_effect v)) h
  | lit v => exact decOp_case rfl rfl rfl (fun hh => orOperand_effect hh (emitWord_effect _)) h
  | dcPush c => exact decOp_case rfl rfl rfl (fun hh => orOperand_effect hh (escapePosition_effect c)) h
  | dcEnd =>
    rcases execDcEnd_eq_next h with ⟨hh, ht⟩ | ⟨hh, hw, ht⟩ | ⟨hh, -, ht⟩
    · exact .decIgnored rfl rfl hh ht
    · exact .truncatedFault rfl hh hw ht
    · exact .decEffect rfl rfl rfl ⟨hh, ht ▸ emitWord_effect _⟩
  | pw p0 p1 p2 =>
    rcases encOp_eq_next h with ⟨hh, ht⟩ | ⟨hh, -⟩
    · exact .encIgnored rfl rfl hh ht
    · exact .encEffect rfl rfl rfl (compressorPush_effect hh h)
  | cpPush w =>
    rcases encOp_eq_next h with ⟨hh, ht⟩ | ⟨hh, -⟩
    · exact .encIgnored rfl rfl hh ht
    · exact .encEffect rfl rfl rfl (compressorPush_effect hh h)
  | cpEnd =>
    rcases encOp_eq_next h with ⟨hh, ht⟩ | ⟨hh, -⟩
    · exact .encIgnored rfl rfl hh ht
    · exact .encEffect rfl rfl rfl (compressorEnd_effect hh h)
  | pkPush v =>
    rcases execPkPush_eq_next h with ⟨hh, ht⟩ | ⟨hh, hv, ht⟩ | ⟨-, he, -⟩
    · exact .encIgnored rfl rfl hh ht
    · exact .intensityFault v rfl hv hh ht
    · exact .encEffect rfl rfl rfl he
  | pkEnd =>
    rcases execPkEnd_eq_next h with ⟨hh, ht⟩ | ⟨hh, hn, ht⟩ | ⟨hh, -, he⟩
    · exact .encIgnored rfl rfl hh ht
    · exact .lengthFault rfl hh hn ht
    · exact .encEffect rfl rfl rfl (compressorEnd_effect hh (by rw [compressorEnd, encOp_of_running _ hh, he]))
  | rstEnc b => exact .resetEnc b rfl (Host.Outcome.next.inj h).symm
  | rstDec => exact .resetDec rfl (Host.Outcome.next.inj h).symm
  | rstAll b => exact .resetAll b rfl (Host.Outcome.next.inj h).symm
  | statusRd => exact .read _ (.inl rfl) (Host.Outcome.next.inj h).symm
  | cfgRd => exact .read _ (.inr rfl) (Host.Outcome.next.inj h).symm

end Sys2Proof.Machine
end

