-- ==== Sys2Proof/Laws/PerInstr.lean ====
section
/-! SUPPORT. The family of facts made once per constructor of `Instr`: the encoding of a well-formed instruction is one the
hardware can carry. -/

namespace Sys2Proof.Laws.EncodeFits

/-- A well-formed instruction has an encoding that fits its port or format, whatever the width of `PIX_IN`. -/
def Statement (i : Instr) : Prop := ∀ W : IntW, i.wf W = true → (encode i).fits W = true

theorem zrun (n : Byte) : Statement (.zrun n) := fun _ _ => rfl
theorem frun (n : Byte) : Statement (.frun n) := fun _ _ => rfl
theorem grun (n : Byte) : Statement (.grun n) := fun _ _ => rfl
theorem grunOperand (v : Word) : Statement (.grunOperand v) := fun _ _ => rfl
theorem lit (v : Word) : Statement (.lit v) := fun _ _ => rfl
/-- No lane of a packed word reaches bit 5 (R89). -/
theorem pw (p0 p1 p2 : Lane) : Statement (.pw p0 p1 p2) := by
  intro _ _
  simp [encode, Encoding.fits, Machine.pad, Machine.packw, Config.sh0, Config.sh1, Config.sh2]
theorem pkPush (v : Nat) : Statement (.pkPush v) := fun _ h => h
theorem pkEnd : Statement .pkEnd := fun _ _ => rfl
theorem cpPush (w : Word) : Statement (.cpPush w) := fun _ _ => rfl
theorem cpEnd : Statement .cpEnd := fun _ _ => rfl
theorem dcPush (c : Word) : Statement (.dcPush c) := fun _ _ => rfl
theorem dcEnd : Statement .dcEnd := fun _ _ => rfl
theorem rstEnc (b : BitVec 1) : Statement (.rstEnc b) := fun _ _ => rfl
theorem rstDec : Statement .rstDec := fun _ _ => rfl
theorem rstAll (b : BitVec 1) : Statement (.rstAll b) := fun _ _ => rfl
theorem statusRd : Statement .statusRd := fun _ _ => rfl
theorem cfgRd : Statement .cfgRd := fun _ _ => rfl

end Sys2Proof.Laws.EncodeFits
end

