-- ==== Sys2Proof/Laws/Run.lean ====
section
/-! SUPPORT. Sequences of operations taken apart; what an operation emits, by its role in the runs of a path; and the payloads
of streams that grow. -/

namespace Sys2Proof.Machine

variable {s t : State} {i : Instr}

/-! ### Sequences of operations and ghost quantities -/

@[simp] theorem execAll_nil (s : State) : execAll [] s = .next s := rfl

theorem execAll_cons_eq_next {is : List Instr} :
    execAll (i :: is) s = .next t ↔ ∃ u, exec i s = .next u ∧ execAll is u = .next t := andThen_eq_next

@[simp] theorem ghostAll_nil {γ : Type} (f : γ → State → Instr → State → γ) (s : State) (g : γ) : ghostAll f [] s g = g := rfl

theorem ghostAll_cons {γ : Type} (f : γ → State → Instr → State → γ) (is : List Instr) (g : γ)
    (h : exec i s = .next t) : ghostAll f (i :: is) s g = ghostAll f is t (f g s i t) := by
  simp [ghostAll, h]

/-- A ghost quantity after one operation more. -/
theorem ghostAll_snoc {γ : Type} (f : γ → State → Instr → State → γ) {is : List Instr} {u : State} (g : γ)
    (h : execAll is s = .next t) (hi : exec i t = .next u) :
    ghostAll f (is ++ [i]) s g = f (ghostAll f is s g) t i u := by
  induction is generalizing s g with
  | nil => cases h; simp [ghostAll_cons f [] g hi]
  | cons j js ih =>
    obtain ⟨v, hj, hjs⟩ := execAll_cons_eq_next.mp h
    rw [List.cons_append, ghostAll_cons f _ g hj, ghostAll_cons f _ g hj, ih (f g s j v) hjs]

/-! ### What an operation emits, by its role -/

theorem takeWord_emits {w : Word} (h : takeWord w s = .next t) : ∃ ws : List Word, t.codeOut = s.codeOut ++ ws.map .w := by
  rcases takeWord_eq_next h with ⟨-, rfl⟩ | ⟨-, -, rfl⟩ | ⟨-, -, -, rfl⟩
  · exact ⟨[w], rfl⟩
  · exact ⟨[], by simp⟩
  · exact ⟨finPending s.cur s.cnt, by simp⟩

theorem compressorPush_emits {w : Word} (h : compressorPush w s = .next t) :
    ∃ ws : List Word, t.codeOut = s.codeOut ++ ws.map .w := by
  rcases encOp_eq_next h with ⟨-, rfl⟩ | ⟨-, h⟩
  · exact ⟨[], by simp⟩
  · exact takeWord_emits h

theorem compressorEnd_emits (h : compressorEnd s = .next t) :
    t.encHalt = true ∨ ∃ ws : List Word, t.codeOut = s.codeOut ++ ws.map .w ++ [.eos] := by
  rcases encOp_eq_next h with ⟨hh, rfl⟩ | ⟨-, h⟩
  · exact .inl hh
  · obtain ⟨-, rfl⟩ := endWords_eq_next h
    exact .inr ⟨finPending s.cur s.cnt, rfl⟩

/-- A push on the ENC path emits data tokens only. -/
theorem encPush_emits (hr : encRole i = .push) (h : exec i s = .next t) :
    ∃ ws : List Word, t.codeOut = s.codeOut ++ ws.map .w := by
  cases i <;> try contradiction
  case pw => exact compressorPush_emits h
  case cpPush => exact compressorPush_emits h
  case pkPush v =>
    rcases encOp_eq_next (show execPkPush v s = .next t from h) with ⟨-, rfl⟩ | ⟨-, hk⟩
    · exact ⟨[], by simp⟩
    · cases hv : legalIntensity v
      · simp only [hv, Bool.false_eq_true, if_false, Host.Outcome.next.injEq] at hk
        exact ⟨[], by simp [← hk]⟩
      · simp only [hv, if_true] at hk
        cases hp : s.pk with
        | empty => simp only [hp, Host.Outcome.next.injEq] at hk; exact ⟨[], by simp [← hk]⟩
        | one b0 => simp only [hp, Host.Outcome.next.injEq] at hk; exact ⟨[], by simp [← hk]⟩
        | two b0 b1 => simp only [hp] at hk; simpa using compressorPush_emits hk

/-- An END of the ENC path leaves it halted, or emits data tokens and `EOS`. -/
theorem encFinish_emits (hr : encRole i = .finish) (h : exec i s = .next t) :
    t.encHalt = true ∨ ∃ ws : List Word, t.codeOut = s.codeOut ++ ws.map .w ++ [.eos] := by
  cases i <;> try contradiction
  case cpEnd => exact compressorEnd_emits h
  case pkEnd =>
    rcases execPkEnd_eq_next h with ⟨hh, rfl⟩ | ⟨-, -, rfl⟩ | ⟨-, -, he⟩
    · exact .inl hh
    · exact .inl (by simp [State.encHalt, State.errLen])
    · obtain ⟨-, rfl⟩ := endWords_eq_next he
      exact .inr ⟨finPending s.cur s.cnt, rfl⟩

/-- An operation that is none of the ENC path's runs emits nothing on it. -/
theorem encOther_emits (hr : encRole i = .other) (h : exec i s = .next t) : t.codeOut = s.codeOut := by
  have he : i.onEnc = false := by cases i <;> first | rfl | contradiction
  cases exec_eq_next h with
  | encIgnored h1 => simp [he] at h1
  | decIgnored _ _ _ ht => rw [ht]
  | encEffect h1 => simp [he] at h1
  | decEffect _ _ _ hd => obtain ⟨-, p, ts, rfl⟩ := hd; simp
  | lengthFault hi => subst hi; contradiction
  | intensityFault v hi => subst hi; contradiction
  | truncatedFault _ _ _ ht => simp [ht]
  | resetEnc b hi => subst hi; contradiction
  | resetDec _ ht => simp [ht, Machine.resetDec]
  | resetAll b hi => subst hi; contradiction
  | read r _ ht => simp [ht]

theorem orOperand_emits {c : Word} {k : State → State}
    (hk : ∃ ws : List Word, (k s).wordOut = s.wordOut ++ ws.map .w) :
    ∃ ws : List Word, (orOperand c k s).wordOut = s.wordOut ++ ws.map .w := by
  cases hd : s.dcPend with
  | none => rwa [orOperand_escapePosition c k hd]
  | some n => exact ⟨List.replicate n.toNat c, by simp [hd, emitCopies]⟩

theorem escapePosition_emits (c : Word) : ∃ ws : List Word, (escapePosition c s).wordOut = s.wordOut ++ ws.map .w := by
  rcases escapePosition_cases c s with ⟨v, n, -, h⟩ | ⟨-, h⟩
  · exact ⟨List.replicate n v, by simp [h]⟩
  · exact ⟨[], by simp [h]⟩

theorem decOp_emits {k : State → State} (hk : ∃ ws : List Word, (k s).wordOut = s.wordOut ++ ws.map .w)
    (h : decOp k s = .next t) : ∃ ws : List Word, t.wordOut = s.wordOut ++ ws.map .w := by
  rcases decOp_eq_next h with ⟨-, rfl⟩ | ⟨-, rfl⟩
  · exact ⟨[], by simp⟩
  · exact hk

/-- A push on the DEC path emits data tokens only. -/
theorem decPush_emits (hr : decRole i = .push) (h : exec i s = .next t) :
    ∃ ws : List Word, t.wordOut = s.wordOut ++ ws.map .w := by
  cases i <;> try contradiction
  case zrun n => exact decOp_emits (orOperand_emits ⟨List.replicate n.toNat Config.vZero, by simp [emitCopies]⟩) h
  case frun n => exact decOp_emits (orOperand_emits ⟨List.replicate n.toNat Config.vFull, by simp [emitCopies]⟩) h
  case grun n => exact decOp_emits (orOperand_emits ⟨[], by simp⟩) h
  case grunOperand v => exact decOp_emits (orOperand_emits (escapePosition_emits v)) h
  case lit v => exact decOp_emits (orOperand_emits ⟨[v], rfl⟩) h
  case dcPush c => exact decOp_emits (orOperand_emits (escapePosition_emits c)) h

/-- An END of the DEC path leaves it halted, or emits `EOS`. -/
theorem decFinish_emits (hr : decRole i = .finish) (h : exec i s = .next t) :
    t.decHalt = true ∨ t.wordOut = s.wordOut ++ [.eos] := by
  cases i <;> try contradiction
  rcases execDcEnd_eq_next h with ⟨hh, rfl⟩ | ⟨-, -, rfl⟩ | ⟨-, -, rfl⟩
  · exact .inl hh
  · exact .inl (by simp [State.decHalt, State.errTrunc])
  · exact .inr rfl

/-- An operation that is none of the DEC path's runs emits nothing on it. -/
theorem decOther_emits (hr : decRole i = .other) (h : exec i s = .next t) : t.wordOut = s.wordOut := by
  have he : i.onDec = false := by cases i <;> first | rfl | contradiction
  cases exec_eq_next h with
  | encIgnored _ _ _ ht => rw [ht]
  | decIgnored h1 => simp [he] at h1
  | encEffect _ _ _ hd => obtain ⟨-, pk, cur, cnt, ts, rfl, -⟩ := hd; simp
  | decEffect h1 => simp [he] at h1
  | lengthFault _ _ _ ht => simp [ht]
  | intensityFault v _ _ _ ht => simp [ht]
  | truncatedFault hi => subst hi; contradiction
  | resetEnc b _ ht => simp [ht, Machine.resetEnc]
  | resetDec hi => subst hi; contradiction
  | resetAll b hi => subst hi; contradiction
  | read r _ ht => simp [ht]

/-! ### Streams that grow -/

@[simp] theorem payloads_append (xs ys : List OutToken) : payloads (xs ++ ys) = payloads xs ++ payloads ys := by
  induction xs with
  | nil => rfl
  | cons x xs ih => cases x <;> simp [payloads, ih]

@[simp] theorem payloads_data (ws : List Word) : payloads (ws.map .w) = ws := by
  induction ws with
  | nil => rfl
  | cons w ws ih => simp [payloads, ih]

@[simp] theorem openFrom_data (held ws : List Word) : openFrom held (ws.map .w) = held ++ ws := by
  induction ws generalizing held with
  | nil => simp [openFrom]
  | cons w ws ih => simp [openFrom, ih]

theorem openFrom_append (held : List Word) (xs ys : List OutToken) :
    openFrom held (xs ++ ys) = openFrom (openFrom held xs) ys := by
  induction xs generalizing held with
  | nil => rfl
  | cons x xs ih => cases x <;> simp [openFrom, ih]

theorem sequencesFrom_append (held : List Word) (xs ys : List OutToken) :
    sequencesFrom held (xs ++ ys) = sequencesFrom held xs ++ sequencesFrom (openFrom held xs) ys := by
  induction xs generalizing held with
  | nil => rfl
  | cons x xs ih => cases x <;> simp [sequencesFrom, openFrom, ih]

/-- The sequence that an `EOS` completes: what was open on the stream, then the payloads emitted since. -/
theorem lastSequence_closed (xs : List OutToken) (ws : List Word) :
    lastSequence (xs ++ ws.map .w ++ [.eos]) = openPayloads xs ++ ws := by
  simp [lastSequence, sequences, openPayloads, sequencesFrom_append, sequencesFrom]

/-! ### Runs of a path -/

@[simp] theorem RunTrack.current_begin (xs ys : List OutToken) : (RunTrack.begin xs).current ys = .begin xs := rfl

theorem RunTrack.current_of_open {r : RunTrack} (h : r.ended = false) (ys : List OutToken) : r.current ys = r := by
  simp [RunTrack.current, h]

@[simp] theorem RunTrack.status_of_halted (r : RunTrack) (xs : List OutToken) : r.status xs true = .endedBadly := rfl

@[simp] theorem RunTrack.begin_status (xs ys : List OutToken) : (RunTrack.begin xs).status ys false = .notEnded := rfl

/-- What a run that began at `xs` has emitted. -/
@[simp] theorem RunTrack.emitted_append (xs ys : List OutToken) (b : Bool) :
    (RunTrack.mk xs.length b).emitted (xs ++ ys) = payloads ys := by
  simp [RunTrack.emitted]

section Next
variable (r : RunTrack) (xs ys : List OutToken) (halted : Bool)

@[simp] theorem RunTrack.next_reset : r.next .reset xs ys halted = .begin ys := rfl
@[simp] theorem RunTrack.next_push : r.next .push xs ys halted = r.current xs := rfl
@[simp] theorem RunTrack.next_finish : r.next .finish xs ys halted = { r.current xs with ended := !halted } := rfl
@[simp] theorem RunTrack.next_other : r.next .other xs ys halted = r := rfl

end Next

theorem RunTrack.encAfterAll_cons (r : RunTrack) (is : List Instr) (h : exec i s = .next t) :
    r.encAfterAll s (i :: is) = (r.next (encRole i) s.codeOut t.codeOut t.encHalt).encAfterAll t is :=
  ghostAll_cons _ is r h

theorem RunTrack.decAfterAll_cons (r : RunTrack) (is : List Instr) (h : exec i s = .next t) :
    r.decAfterAll s (i :: is) = (r.next (decRole i) s.wordOut t.wordOut t.decHalt).decAfterAll t is :=
  ghostAll_cons _ is r h

theorem RunTrack.encAfterAll_snoc (r : RunTrack) {is : List Instr} {u : State} (h : execAll is s = .next t)
    (hi : exec i t = .next u) :
    r.encAfterAll s (is ++ [i]) = (r.encAfterAll s is).next (encRole i) t.codeOut u.codeOut u.encHalt :=
  ghostAll_snoc _ r h hi

theorem RunTrack.decAfterAll_snoc (r : RunTrack) {is : List Instr} {u : State} (h : execAll is s = .next t)
    (hi : exec i t = .next u) :
    r.decAfterAll s (is ++ [i]) = (r.decAfterAll s is).next (decRole i) t.wordOut u.wordOut u.decHalt :=
  ghostAll_snoc _ r h hi

/-- Pushes and the other path's operations do not end a run of the ENC path, and emit data tokens only. -/
theorem encPushes (is : List Instr) (hr : ∀ i ∈ is, encRole i = .push ∨ encRole i = .other)
    (h : execAll is s = .next t) (r : RunTrack) (hopen : r.ended = false) :
    r.encAfterAll s is = r ∧ ∃ ws : List Word, t.codeOut = s.codeOut ++ ws.map .w := by
  induction is generalizing s with
  | nil => cases h; exact ⟨rfl, [], by simp⟩
  | cons i is ih =>
    obtain ⟨u, hu, hs⟩ := execAll_cons_eq_next.mp h
    obtain ⟨hr', ws, hws⟩ := ih (fun j hj => hr j (List.mem_cons_of_mem i hj)) hs
    rw [r.encAfterAll_cons is hu]
    rcases hr i List.mem_cons_self with hi | hi
    · obtain ⟨vs, hvs⟩ := encPush_emits hi hu
      exact ⟨by simpa [hi, r.current_of_open hopen] using hr', vs ++ ws, by simp [hws, hvs]⟩
    · exact ⟨by simpa [hi] using hr', ws, by rw [hws, encOther_emits hi hu]⟩

/-- Pushes and the other path's operations do not end a run of the DEC path, and emit data tokens only. -/
theorem decPushes (is : List Instr) (hr : ∀ i ∈ is, decRole i = .push ∨ decRole i = .other)
    (h : execAll is s = .next t) (r : RunTrack) (hopen : r.ended = false) :
    r.decAfterAll s is = r ∧ ∃ ws : List Word, t.wordOut = s.wordOut ++ ws.map .w := by
  induction is generalizing s with
  | nil => cases h; exact ⟨rfl, [], by simp⟩
  | cons i is ih =>
    obtain ⟨u, hu, hs⟩ := execAll_cons_eq_next.mp h
    obtain ⟨hr', ws, hws⟩ := ih (fun j hj => hr j (List.mem_cons_of_mem i hj)) hs
    rw [r.decAfterAll_cons is hu]
    rcases hr i List.mem_cons_self with hi | hi
    · obtain ⟨vs, hvs⟩ := decPush_emits hi hu
      exact ⟨by simpa [hi, r.current_of_open hopen] using hr', vs ++ ws, by simp [hws, hvs]⟩
    · exact ⟨by simpa [hi] using hr', ws, by rw [hws, decOther_emits hi hu]⟩

end Sys2Proof.Machine
end

