-- ==== Sys2Proof/Laws/Step.lean ====
section
/-! SUPPORT. What one step can do at any `INT_W`, said once, and how runs of steps are taken apart. -/

namespace Sys2Proof.Machine

variable {W : IntW} {s t : State}

@[simp] theorem stepAt_of_idle (W : IntW) (h : s.inbox = []) : stepAt W s = .next s := by
  simp [stepAt, takeEvent, h]

theorem stepAt_of_event {e : HostEvent} {es : List HostEvent} {i : Instr} (h : s.inbox = e :: es)
    (hd : decode W (.event e) = .ok i) : stepAt W s = exec i (s.setInbox es) := by
  simp [stepAt, takeEvent, eventInstr, h, hd]

/-- A step that answers a next state was idle, or performed the operation of the oldest event. -/
theorem stepAt_eq_next (h : stepAt W s = .next t) :
    (s.inbox = [] ∧ t = s) ∨
    ∃ e es i, s.inbox = e :: es ∧ decode W (.event e) = .ok i ∧ exec i (s.setInbox es) = .next t := by
  cases hs : s.inbox with
  | nil => exact .inl ⟨rfl, by simpa [hs] using h.symm⟩
  | cons e es =>
    cases hd : decode W (.event e) with
    | ok i => exact .inr ⟨e, es, i, rfl, hd, by rwa [stepAt_of_event hs hd] at h⟩
    | error why => simp [stepAt, takeEvent, eventInstr, hs, hd] at h

@[simp] theorem runAt_zero (W : IntW) (s : State) : runAt W 0 s = .next s := rfl

theorem runAt_succ (W : IntW) (n : Nat) (s : State) : runAt W (n + 1) s = andThen (stepAt W s) (runAt W n) := rfl

theorem step_eq_stepAt : step s = stepAt Config.intW s := rfl

end Sys2Proof.Machine
end

