-- ==== Sys2Proof/Machine/Listing.lean ====
section
/-! DEFINITION. The listing syntax of the spec (spec/30_encoding.md R101): items of a code stream and operations as text,
values as four hexadecimal digits, counts and intensities in decimal. -/

namespace Sys2Proof.Machine

/-- One hexadecimal digit. -/
def hexDigit (d : BitVec 4) : Char :=
  ("0123456789ABCDEF".toList)[d.toNat]?.getD '?'

/-- A 16-bit value as `0x` and four digits (R9, R101). -/
def hexWord (w : Word) : String :=
  "0x" ++ String.ofList
    [hexDigit (w.extractLsb' 12 4), hexDigit (w.extractLsb' 8 4), hexDigit (w.extractLsb' 4 4), hexDigit (w.extractLsb' 0 4)]

/-- One line of a stream's disassembly (R101). -/
def Item.listing : Item → String
  | .lit v => "LIT " ++ hexWord v
  | .zrun n => "ZRUN " ++ toString n.toNat
  | .frun n => "FRUN " ++ toString n.toNat
  | .grun n v => "GRUN " ++ toString n.toNat ++ ", " ++ hexWord v

/-- One line of an operation listing (R101); the rows that are no operation are written with their row's name. -/
def listing : Instr → String
  | .zrun n => "ZRUN " ++ toString n.toNat
  | .frun n => "FRUN " ++ toString n.toNat
  | .grun n => "GRUN " ++ toString n.toNat
  | .grunOperand v => "GRUN.OPERAND " ++ hexWord v
  | .lit v => "LIT " ++ hexWord v
  | .pw p0 p1 p2 => "PW " ++ hexWord (packw p0 p1 p2)
  | .pkPush v => "PK.PUSH " ++ toString v
  | .pkEnd => "PK.END"
  | .cpPush w => "CP.PUSH " ++ hexWord w
  | .cpEnd => "CP.END"
  | .dcPush c => "DC.PUSH " ++ hexWord c
  | .dcEnd => "DC.END"
  | .rstEnc b => "RST.ENC " ++ toString b.toNat
  | .rstDec => "RST.DEC"
  | .rstAll b => "RST.ALL " ++ toString b.toNat
  | .statusRd => "STATUS.RD"
  | .cfgRd => "CFG.RD"

end Sys2Proof.Machine
end

