-- ==== Sys2Proof/Tests/Slice0.lean ====
section
/-! SUPPORT. The model's own tests. Expected values come from the spec: the patterns of spec/30_encoding.md and the vectors of
spec/95_test_vectors.md, named by their ids (P, E, K, X, Y and the steps of section 2.3). Then, for each statement with hypotheses,
a concrete case that meets them, clause by clause. -/

namespace Sys2Proof.Tests

open Sys2Proof.Machine

/-- The next state of an outcome, if it is one. -/
def nextOf (o : Host.Outcome State Fault Refusal) : Option State :=
  match o with
  | .next s => some s
  | .fault _ => none
  | .refused _ => none

/-- The state after `RST.ALL 0` and after `RST.ALL 1`. -/
def s0 : State := .resetWith 0
def s1 : State := .resetWith 1

/-! ### Well-formedness: an ill-formed term for each check -/

theorem test_wf_pixel_too_wide : (Instr.pkPush 256).wf Config.intW = false := by decide
theorem test_wf_pixel_widest : (Instr.pkPush 255).wf Config.intW = true ∧ (Instr.pkPush 32).wf Config.intWLeast = false := by decide
theorem test_wf_literal_sentinel :
    (Instr.lit 0x12FF).wf Config.intW = false ∧ (Instr.lit 0x12FE).wf Config.intW = false ∧ (Instr.lit 0x12F0).wf Config.intW = false := by decide
theorem test_wf_literal : (Instr.lit 0x1234).wf Config.intW = true := by decide
/-- The default of R6. -/
theorem test_intW_default : Config.intW.bits = 8 ∧ Config.intWLeast.bits = 5 := by decide

/-! ### Decoding: words written out from the patterns of R80 and R83 to R86 -/

theorem test_decode_zrun : decode Config.intW (.code false 0b0000010111111111#16) = .ok (.zrun 5) := by decide
theorem test_decode_frun : decode Config.intW (.code false 0b0000001111111110#16) = .ok (.frun 3) := by decide
theorem test_decode_grun : decode Config.intW (.code false 0b0000010011110000#16) = .ok (.grun 4) := by decide
theorem test_decode_operand : decode Config.intW (.code true 0b1111111111110000#16) = .ok (.grunOperand 0xFFF0) := by decide
theorem test_decode_lit : decode Config.intW (.code false 0b1010101111001101#16) = .ok (.lit 0xABCD) := by decide
/-- Low bytes next to the sentinels are literals. -/
theorem test_decode_near_sentinels :
    decodeCode false 0x00FD = .lit 0x00FD ∧ decodeCode false 0x00F1 = .lit 0x00F1 ∧
    decodeCode false 0xFF00 = .lit 0xFF00 := by decide
/-- `packw(1, 2, 3)`: 00011 00010 0 00001. -/
theorem test_decode_pw : decode Config.intW (.packed 0b0001100010000001#16) = .ok (.pw 1 2 3) := by decide
theorem test_decode_pw_pad : decode Config.intW (.packed 0b0000000000100000#16) = .error (.padBitSet 0x20) := by decide
theorem test_decode_pk_push : decode Config.intW (.event (.pixData 0b00011111)) = .ok (.pkPush 31) := by decide
theorem test_decode_pk_end : decode Config.intW (.event .pixEnd) = .ok .pkEnd := by decide
theorem test_decode_cp_push : decode Config.intW (.event (.wordData 0x00FF)) = .ok (.cpPush 0x00FF) := by decide
theorem test_decode_cp_end : decode Config.intW (.event .wordEnd) = .ok .cpEnd := by decide
theorem test_decode_dc_push : decode Config.intW (.event (.codeData 0x05FF)) = .ok (.dcPush 0x05FF) := by decide
theorem test_decode_dc_end : decode Config.intW (.event .codeEnd) = .ok .dcEnd := by decide
theorem test_decode_resets :
    decode Config.intW (.event (.rstEnc 1)) = .ok (.rstEnc 1) ∧ decode Config.intW (.event .rstDec) = .ok .rstDec ∧
    decode Config.intW (.event (.rstAll 0)) = .ok (.rstAll 0) := by decide
theorem test_decode_reads :
    decode Config.intW (.event .statusRd) = .ok .statusRd ∧ decode Config.intW (.event .cfgRd) = .ok .cfgRd := by decide
theorem test_table_words :
    decodeTableWord 16 0x00FF = some (.zrun 0) ∧ decodeTableWord 16 0x00FE = some (.frun 0) ∧
    decodeTableWord 16 0x00F0 = some (.grun 0) ∧ decodeTableWord 16 0 = some (.lit 0) := by decide
/-- The table word of a generic run, placed as the next event, is run by the very next step from reset. -/
theorem test_fetch_word_runs :
    nextOf (step (State.reset.withFetchWord 16 0x04F0)) = some { State.reset with dcPend := some 4 } := by decide
theorem test_unpack : unpack 0x1234 = (20, 8, 2) ∧ packw 20 8 2 = 0x1214 := by decide
theorem test_packw : packw 31 31 31 = 0xFFDF ∧ packw 13 15 21 = 0xABCD ∧ packw 0 31 0 = 0x07C0 := by decide

/-! ### One step each -/

/-- P7. -/
theorem test_pk_push_first : nextOf (exec (.pkPush 31) s0) = some { s0 with pk := .one 31 } := by decide
/-- P3, the third push, in bypass. -/
theorem test_pk_push_third :
    nextOf (exec (.pkPush 21) { s1 with pk := .two 13 15 }) = some { s1 with codeOut := [.w 0xABCD] } := by decide
/-- P9. -/
theorem test_pk_end_partial :
    nextOf (exec .pkEnd { s1 with pk := .one 1 }) = some { s1 with pk := .one 1, status := 0b001 } := by decide
/-- P5. -/
theorem test_pk_end_empty : nextOf (exec .pkEnd s1) = some { s1 with codeOut := [.eos] } := by decide
theorem test_pw : nextOf (exec (.pw 31 31 31) s0) = some { s0 with cur := some 0xFFDF, cnt := 1 } := by decide
/-- Step 3 of section 2.3. -/
theorem test_cp_push_closes :
    nextOf (exec (.cpPush 0x0000) { s0 with cur := some 0x0841, cnt := 2 }) =
      some { s0 with cur := some 0, cnt := 1, codeOut := [.w 0x02F0, .w 0x0841] } := by decide
/-- Program 4, push 256. -/
theorem test_cp_push_splits :
    nextOf (exec (.cpPush 0x1234) { s0 with cur := some 0x1234, cnt := 255 }) =
      some { s0 with cur := some 0x1234, cnt := 1, codeOut := [.w 0xFFF0, .w 0x1234] } := by decide
/-- Step 9 of section 2.3. -/
theorem test_cp_end :
    nextOf (exec .cpEnd { s0 with cur := some 0, cnt := 2 }) =
      some { s0 with codeOut := [.w 0x02FF, .eos] } := by decide
/-- E5. -/
theorem test_dc_push_zrun :
    nextOf (exec (.dcPush 0x05FF) s0) = some { s0 with wordOut := [.w 0, .w 0, .w 0, .w 0, .w 0] } := by decide
/-- E14, the second push. -/
theorem test_dc_push_operand :
    nextOf (exec (.dcPush 0x03FF) { s0 with dcPend := some 2 }) =
      some { s0 with wordOut := [.w 0x03FF, .w 0x03FF] } := by decide
theorem test_zrun : nextOf (exec (.zrun 0) s0) = some s0 := by decide
/-- E6. -/
theorem test_frun :
    nextOf (exec (.frun 3) s0) = some { s0 with wordOut := [.w 0xFFDF, .w 0xFFDF, .w 0xFFDF] } := by decide
/-- E7. -/
theorem test_grun : nextOf (exec (.grun 4) s0) = some { s0 with dcPend := some 4 } := by decide
/-- E12, the second push. -/
theorem test_grun_operand :
    nextOf (exec (.grunOperand 0xAAAA) { s0 with dcPend := some 0 }) = some s0 := by decide
/-- E4. -/
theorem test_lit : nextOf (exec (.lit 0x1234) s0) = some { s0 with wordOut := [.w 0x1234] } := by decide
/-- E17. -/
theorem test_dc_end_truncated :
    nextOf (exec .dcEnd { s0 with dcPend := some 4 }) = some { s0 with dcPend := some 4, status := 0b100 } := by decide
/-- E16. -/
theorem test_dc_end : nextOf (exec .dcEnd s0) = some { s0 with wordOut := [.eos] } := by decide
/-- Y3, the reset: the pending run is dropped; Y7: DC is untouched. -/
theorem test_rst_enc :
    nextOf (exec (.rstEnc 0) { s1 with cur := some 0x1234, cnt := 4, dcPend := some 4, status := 0b110 }) =
      some { s0 with dcPend := some 4, status := 0b100 } := by decide
/-- Y5, the reset: ENC flags stay. -/
theorem test_rst_dec :
    nextOf (exec .rstDec { s0 with dcPend := some 4, status := 0b110 }) = some { s0 with status := 0b010 } := by decide
/-- Y1. -/
theorem test_rst_all :
    nextOf (exec (.rstAll 0) { s1 with pk := .one 3, status := 0b111, cur := some 9, cnt := 9 }) = some s0 := by decide
/-- Y4, the read. -/
theorem test_status_rd :
    nextOf (exec .statusRd { s0 with status := 0b010 }) =
      some { s0 with status := 0b010, reads := [.status 0b010] } := by decide
/-- Y2, the read. -/
theorem test_cfg_rd : nextOf (exec .cfgRd s1) = some { s1 with reads := [.cfg 1] } := by decide

/-! ### Batch functions and listing -/

/-- K23. -/
theorem test_compress : compress [0x0000, 0x0000, 0x0000, 0xFFDF, 0xFFDF, 0x1881, 0x1881, 0x1881, 0x1881, 0xABCD] =
    [0x03FF, 0x02FE, 0x04F0, 0x1881, 0xABCD] := by decide
/-- X3, G8. -/
theorem test_decode_stream :
    decodeStream [0x00F0, 0x0001] = .ok [] ∧ decodeStream [0x0001, 0x04F0] = .error .truncatedStream := by decide
/-- P12: the intensity fault wins over the length fault. -/
theorem test_pack : pack [1, 2, 40, 3] = .error .invalidIntensity ∧ pack [1, 2] = .error .invalidInputLength := by decide
/-- Program 1, the disassembly. -/
theorem test_listing :
    (itemise [0x03FF, 0x02FE, 0x04F0, 0x1881, 0xABCD]).map (fun l => l.map Item.listing) =
      .ok ["ZRUN 3", "FRUN 2", "GRUN 4, 0x1881", "LIT 0xABCD"] := by decide

/-! ### Steps at another width, positions and runs -/

/-- U16: an intensity of nine bits is a token of a block with `INT_W = 9`, and raises `InvalidIntensity` (R112). -/
theorem test_step_nine_bits :
    nextOf (stepAt ⟨9, by decide⟩ { s0 with inbox := [.pixData 256] }) = some { s0 with status := 0b010 } := by decide
/-- R30, R53, R54: the faulting third intensity is a token PK consumes and CP does not; so with a faulting `PK.END`. -/
theorem test_positions_after_fault :
    (Positions.mk 2 5 0).afterAll { s0 with pk := .two 1 2 } [.pkPush 40] = ⟨3, 5, 0⟩ ∧
    (Positions.mk 2 5 0).afterAll { s0 with pk := .two 1 2 } [.pkEnd] = ⟨0, 5, 0⟩ ∧
    (Positions.mk 2 5 0).afterAll { s0 with pk := .two 1 2 } [.pkPush 31, .pkEnd] = ⟨0, 0, 0⟩ := by decide
/-- R199: the result of a run, after a complete sequence; then a push that emits nothing begins a run that has not ended. -/
theorem test_run_ends_well :
    ((RunTrack.begin []).encAfterAll s0 [.cpPush 7, .cpEnd, .cpPush 5, .cpPush 5, .cpEnd]).encStatus
      { s0 with codeOut := [.w 7, .eos, .w 0x02F0, .w 5, .eos] } = .endedWell [0x02F0, 5] ∧
    ((RunTrack.begin []).encAfterAll s0 [.cpPush 7, .cpEnd, .cpPush 5]).encStatus
      { s0 with cur := some 5, cnt := 1, codeOut := [.w 7, .eos] } = .notEnded := by decide
/-- R199: a run with a flag set has no result, and one begun by the reset has not ended (G8). -/
theorem test_run_ends_badly :
    ((RunTrack.begin []).decAfterAll s0 [.dcPush 1, .dcPush 0x04F0, .dcEnd]).decStatus
      { s0 with dcPend := some 4, status := 4, wordOut := [.w 1] } = .endedBadly ∧
    ((RunTrack.begin []).decAfterAll s0 [.dcPush 0x04F0, .dcEnd, .rstDec]).decStatus s0 = .notEnded ∧
    ((RunTrack.begin []).decAfterAll s0 [.dcEnd, .rstDec]).decStatus { s0 with wordOut := [.eos] } = .notEnded := by
  decide

/-! ### Witnesses: the hypotheses of the statements can be met -/

theorem witness_ResetEncClearsEncPath :
    State.encHalt { s0 with status := 1 } = true ∧ exec (.rstEnc 1) { s0 with status := 1 } = .next s1 ∧
    s1.encHalt = false := ⟨rfl, rfl, rfl⟩

theorem witness_PkPushFillsTriple :
    State.encHalt { s0 with status := 2 } = true ∧
    (s0.encHalt = false ∧ 31 < 32) ∧
    (s0.encHalt = false ∧ 31 ≤ 31 ∧ s0.pk = .empty) ∧
    (State.encHalt { s0 with pk := .one 31 } = false ∧ 0 ≤ 31) ∧
    (State.encHalt { s0 with pk := .two 31 0 } = false ∧ 31 ≤ 31) := by decide

theorem witness_PkPushRejectsIntensity :
    (s0.encHalt = false ∧ 31 < 32) ∧ Config.intWLeast.bits = 5 ∧
    decode Config.intWLeast (.event (.pixData 31)) = .ok (.pkPush 31) := by decide

theorem witness_PkPushTripleCompletes :
    State.encHalt { s0 with pk := .two 31 0 } = false ∧ 31 ≤ 31 ∧ (s0.cur = none ↔ s0.cnt = 0#8) := by decide

theorem witness_PkEndChecksLength :
    State.encHalt { s0 with status := 1 } = true ∧
    (s0.encHalt = false ∧ State.pkN { s0 with pk := .two 1 2 } ≠ 0 ∧ State.pkN { s0 with pk := .one 1 } ≠ 0) ∧
    (s0.encHalt = false ∧ s0.pkN = 0 ∧ (s0.cur = none ↔ s0.cnt = 0#8)) := by decide

theorem witness_PackedWordActsOnCompressor :
    packw 31 31 31 = ((31#5).setWidth 16 <<< 11) ||| ((31#5).setWidth 16 <<< 6) ||| (31#5).setWidth 16 ∧
    State.encHalt { s0 with status := 3 } = true ∧
    (s1.encHalt = false ∧ s1.bypass = true) ∧
    (s0.encHalt = false ∧ s0.bypass = false ∧ extendsRun (packw 31 31 31) (some 0xFFDF) 254 = true) ∧
    ((s0.cur = none ↔ s0.cnt = 0#8) ∧ extendsRun (packw 31 31 31) s0.cur s0.cnt = false ∧
      extendsRun (packw 31 31 31) (some 0xFFDF) 255 = false) := by decide

theorem witness_CpPushTransition :
    State.encHalt { s0 with status := 1 } = true ∧
    (s1.encHalt = false ∧ s1.bypass = true) ∧
    (s0.encHalt = false ∧ s0.bypass = false ∧ (1#8 ≠ 0#8 ∧ (1#8).toNat < 255) ∧ (254#8).toNat < 255) ∧
    s0.cnt = 0#8 ∧
    (255#8 ≠ 0#8 ∧ ((0x0001 : Word) ≠ 0x1234 ∨ 1#8 = 255#8) ∧ ((0x1234 : Word) ≠ 0x1234 ∨ 255#8 = 255#8)) := by decide

theorem witness_CpEndFlushesRun :
    State.encHalt { s0 with status := 1 } = true ∧ (s0.encHalt = false ∧ s0.cnt = 0#8) ∧
    (s0.encHalt = false ∧ State.cnt { s0 with cur := some 5, cnt := 255 } ≠ 0#8 ∧
      State.cur { s0 with cur := some 5, cnt := 255 } = some 5) ∧
    (s1.encHalt = false ∧ s1.bypass = true ∧ s1.Inv) := by decide

theorem witness_RunEmission :
    s0.encHalt = false ∧ (1#8).toNat = 1 ∧ 1 < (2#8).toNat ∧ 1 < (255#8).toNat ∧
    (0x0001 : Word) ≠ 0x0000 ∧ (0x0001 : Word) ≠ 0xFFDF ∧
    State.cur { s0 with cur := some 1, cnt := 255 } = some 1 ∧ State.cnt { s0 with cur := some 1, cnt := 255 } = 255#8 ∧
    s0.bypass = false ∧ ((1 : Word) ≠ 1 ∨ 255#8 = 255#8) := by decide

/-- An idle Decoder, for every statement about a code in escape position. -/
theorem witness_escape_position :
    s0.decHalt = false ∧ s0.dcPend = none ∧ (lo 0x00FD ≠ 0xFF ∧ lo 0x00FD ≠ 0xFE ∧ lo 0x00FD ≠ 0xF0) ∧
    (lo 0x00F1 ≠ 0xFF ∧ lo 0x00F1 ≠ 0xFE ∧ lo 0x00F1 ≠ 0xF0) := by decide

theorem witness_GenericRunOperandIsRepeated :
    State.decHalt { s0 with dcPend := some 0 } = false ∧ State.dcPend { s0 with dcPend := some 255 } = some 255 := by
  decide

theorem witness_DcPushRunsDecodedCode : State.decHalt { s0 with status := 4 } = true := by decide

theorem witness_CodeRowsActAsDcPush :
    (Instr.zrun 255).wf Config.intW = true ∧ encode (.zrun 255) = .code false 0xFFFF ∧
    (Instr.frun 0).wf Config.intW = true ∧ encode (.frun 0) = .code false 0x00FE ∧
    (Instr.grun 4).wf Config.intW = true ∧ encode (.grun 4) = .code false 0x04F0 ∧
    (Instr.lit 0x1234).wf Config.intW = true ∧ encode (.lit 0x1234) = .code false 0x1234 ∧
    (Instr.grunOperand 0xFFFF).wf Config.intW = true ∧ encode (.grunOperand 0xFFFF) = .code true 0xFFFF := by decide

theorem witness_DcEndChecksOperand :
    State.decHalt { s0 with status := 4 } = true ∧
    (s0.decHalt = false ∧ State.dcWait { s0 with dcPend := some 0 } = true) ∧ s0.dcWait = false := by decide

theorem witness_HaltedPathIgnoresOperations :
    (State.encHalt { s0 with status := 1 } = true ∧ Instr.onEnc .pkEnd = true ∧ Instr.isReset .pkEnd = false) ∧
    (State.decHalt { s0 with status := 4 } = true ∧ Instr.onDec .dcEnd = true ∧ Instr.isReset .dcEnd = false) := by decide

/-- A rise of each flag. -/
theorem witness_FaultsAreRaisedAsTabled :
    exec .pkEnd { s0 with pk := .one 3 } = .next { s0 with pk := .one 3, status := 1 } ∧
    exec (.pkPush 32) s0 = .next { s0 with status := 2 } ∧
    exec .dcEnd { s0 with dcPend := some 0 } = .next { s0 with dcPend := some 0, status := 4 } := ⟨rfl, rfl, rfl⟩

/-- A fall of each flag, and an ignored operation of each path. -/
theorem witness_FlagsClearedOnlyByReset :
    exec (.rstEnc 0) { s0 with status := 3 } = .next s0 ∧ exec .rstDec { s0 with status := 4 } = .next s0 ∧
    exec .cpEnd { s0 with status := 1 } = .next { s0 with status := 1 } ∧
    exec .dcEnd { s0 with status := 4 } = .next { s0 with status := 4 } := ⟨rfl, rfl, rfl, rfl⟩

theorem witness_BypassLatchedOnlyByReset :
    exec (.rstAll 1) s0 = .next s1 ∧ exec .rstDec s0 = .next s0 ∧ (∀ b, Instr.rstDec ≠ .rstEnc b ∧ Instr.rstDec ≠ .rstAll b) :=
  ⟨rfl, rfl, fun _ => ⟨nofun, nofun⟩⟩

/-- `StreamsAreAppendOnly`, `PathsAreFramed`: operations off each path that answer a next state. -/
theorem witness_PathsAreFramed :
    exec (.lit 7) s0 = .next { s0 with wordOut := [.w 7] } ∧ Instr.onEnc (.lit 7) = false ∧
    exec (.cpPush 7) s1 = .next { s1 with codeOut := [.w 7] } ∧ Instr.onDec (.cpPush 7) = false := ⟨rfl, rfl, rfl, rfl⟩

theorem witness_EndRestoresResetState :
    exec .pkEnd s0 = .next { s0 with codeOut := [.eos] } ∧
    exec .cpEnd { s0 with pk := .one 3 } = .next { s0 with pk := .one 3, codeOut := [.eos] } ∧
    exec .dcEnd s0 = .next { s0 with wordOut := [.eos] } ∧ s0.encHalt = false ∧ s0.decHalt = false :=
  ⟨rfl, rfl, rfl, rfl, rfl⟩

theorem witness_ExecStopsOnlyWithoutRunValue : exec .cpEnd { s0 with cnt := 1 } = .fault .finalizeNone := rfl

theorem witness_StepRunsDecodedInstruction :
    decode Config.intW (.event (.pixData 255)) = .ok (.pkPush 255) ∧ s0.inbox = [] ∧ 2 ^ Config.intW.bits ≤ 256 ∧
    s0.encHalt = false ∧ 31 < 32 ∧ 255 < 2 ^ Config.intW.bits := by decide

theorem witness_FetchedCodeRuns : s0.dcWait = false := rfl

theorem witness_RunTakesEventsInOrder :
    [HostEvent.pixData 31, .statusRd].mapM (fun e => decode Config.intW (.event e)) = .ok [.pkPush 31, .statusRd] := rfl

theorem witness_StepKeepsInvariant :
    State.Inv { s0 with inbox := [.wordData 5] } ∧
    step { s0 with inbox := [.wordData 5] } = .next { s0 with cur := some 5, cnt := 1 } := ⟨by decide, rfl⟩

theorem witness_EveryRunIsDefined :
    State.Inv { s0 with inbox := [.pixData 255, .rstDec] } ∧
    State.InboxFits Config.intW { s0 with inbox := [.pixData 255, .rstDec] } := by decide

theorem witness_DecodeOfEncode :
    (Instr.pkPush 31).wf Config.intWLeast = true ∧ (Instr.pkPush 255).wf Config.intW = true ∧ (Instr.lit 0x00FD).wf Config.intW = true := by decide

theorem witness_EncodeOfDecode : decode Config.intWLeast (.event (.pixData 31)) = .ok (.pkPush 31) := by decide

theorem witness_CodesClassifiedByLowByte : (0xFD : Byte) ≠ 0xFF ∧ (0xFD : Byte) ≠ 0xFE ∧ (0xFD : Byte) ≠ 0xF0 := by decide

theorem witness_UnpackRecoversTriple : pack [31, 0, 31] = .ok [packw 31 0 31] := by decide

theorem witness_PackContract :
    pack [0, 31, 32] = .error .invalidIntensity ∧ pack [31] = .error .invalidInputLength ∧
    pack [1, 2, 3] = .ok [0x1881] ∧ (∀ v ∈ [1, 2, 31], v ≤ 31) ∧ [1, 2, 31].length % 3 = 0 := by decide

theorem witness_roundTripDomain : roundTripDomain [0x1234, 0x00FD, 0x0000] := by
  intro w hw
  simp only [List.mem_cons, List.not_mem_nil, or_false] at hw
  rcases hw with rfl | rfl | rfl <;> rfl

/-- The other premises of `DecodeInvertsCompress`: words with bit 5 clear, and a sequence whose runs of one are no escapes. -/
theorem witness_DecodeInvertsCompress :
    (∀ w ∈ ([0x1881, 0xABCD] : List Word), w.getLsbD 5 = false) ∧ runs [0x00FF, 0x00FF, 0x0000] = [(0x00FF, 2), (0x0000, 1)] ∧
    (∀ r ∈ ([(0x00FF, 2), (0x0000, 1)] : List (Word × Byte)), r.2 = 1#8 → isSentinel (lo r.1) = false) := by
  simp; decide

theorem witness_RawWordsDecodeToThemselves : pack [1, 2, 3] = .ok [0x1881] := by decide

theorem witness_CompressNeverLengthens : 1 ≤ (1#8).toNat ∧ compress [5, 6] = [5, 6] ∧ compress [0x1234, 0x1234] = [0x02F0, 0x1234] := by
  decide

/-- A sequence without equal neighbours. -/
theorem witness_no_equal_neighbours : ∀ (X Y : List Word) (v : Word), [] ≠ X ++ v :: v :: Y := by simp

theorem witness_CompressFollowsRuns :
    runs (List.replicate 256 7) = [] ++ (7, 255) :: (7, 1) :: [] := by decide +kernel

theorem witness_DecodeExpandsItems :
    itemise [0x00F0, 0x5555] = .ok [.grun 0 0x5555] ∧ decodeStream [0x04F0] = .error .truncatedStream := by decide

theorem witness_ExpansionIsBounded : decodeStream [0x02FF] = .ok [0, 0] ∧ pack [] = .ok [] := by decide

theorem witness_StreamingPackEqualsBatch :
    pack [1, 2, 3] = .ok [0x1881] ∧ pack [1] = .error .invalidInputLength ∧ pack [40] = .error .invalidIntensity := by decide

/-- Idle paths, for the statements that streaming equals batch and for the round trip end to end. -/
theorem witness_idle :
    s0.encIdle ∧ s0.encHalt = false ∧ s0.decIdle ∧ s0.decHalt = false ∧ s0.cur = none ∧ s0.cnt = 0#8 ∧
    encodeSequence 0 [0, 0, 0, 0, 0, 0] = .ok [0x02FF] ∧ encodeSequence 1 [0, 0, 0] = .ok [0] := by decide

theorem witness_StreamingDecodeEqualsBatch :
    decodeStream [0x0001] = .ok [0x0001] ∧ decodeStream [0x0001, 0x00F0] = .error .truncatedStream := by decide

theorem witness_TriplePositionCountsModThree :
    (s0.pkN = (Positions.mk 3 1 0).pk % 3 ∧ execAll [.pkPush 31] s0 = .next { s0 with pk := .one 31 } ∧
      State.encHalt { s0 with pk := .one 31 } = false) ∧
    (s1.bypass = true ∧ encRole (.pkPush 40) = .push ∧ encRole (.pw 1 2 3) = .push ∧ encRole .statusRd = .other ∧
      execAll [.pw 1 2 3, .pkPush 40, .pkPush 1] s1 = .next { s1 with codeOut := [.w 0x1881], status := 2 }) ∧
    (State.pkN { s1 with pk := .two 1 2 } ≠ 0 ∧
      exec .pkEnd { s1 with pk := .two 1 2 } = .next { s1 with pk := .two 1 2, status := 1 }) :=
  ⟨⟨rfl, rfl, rfl⟩, ⟨rfl, rfl, rfl, rfl, rfl⟩, by decide, rfl⟩

/-- Runs that are pushed only, that end badly and that end well, on either path; a reset, and a push after a run that ended
well. -/
theorem witness_RunsEndWithResultOrNone :
    (encRole (.cpPush 5) = .push ∧ encRole (.lit 5) = .other ∧
      execAll [.cpPush 5, .lit 5] s1 = .next { s1 with codeOut := [.w 5], wordOut := [.w 5] } ∧
      encRole .pkEnd = .finish ∧ exec .pkEnd { s1 with codeOut := [.w 5] } = .next { s1 with codeOut := [.w 5, .eos] } ∧
      exec .pkEnd { s1 with pk := .one 1 } = .next { s1 with pk := .one 1, status := 1 }) ∧
    (decRole (.grun 5) = .push ∧ decRole .cpEnd = .other ∧
      execAll [.grun 5, .statusRd] s1 = .next { s1 with dcPend := some 5, reads := [.status 0] } ∧
      decRole .dcEnd = .finish ∧ exec .dcEnd s1 = .next { s1 with wordOut := [.eos] } ∧
      exec .dcEnd { s1 with dcPend := some 5 } = .next { s1 with dcPend := some 5, status := 4 }) ∧
    (encRole (.rstEnc 1) = .reset ∧ exec (.rstEnc 1) { s0 with status := 1 } = .next s1 ∧
      (RunTrack.mk 0 true).ended = true ∧ s1.encHalt = false ∧
      decRole .rstDec = .reset ∧ exec .rstDec { s1 with status := 4 } = .next s1 ∧ s1.decHalt = false ∧
      exec (.dcPush 7) s1 = .next { s1 with wordOut := [.w 7] }) :=
  ⟨⟨rfl, rfl, rfl, rfl, rfl, rfl⟩, ⟨rfl, rfl, rfl, rfl, rfl, rfl⟩, rfl, rfl, rfl, rfl, rfl, rfl, rfl, rfl⟩

theorem witness_InterleavingIsInvisible :
    execAll [.pkPush 31, .lit 7, .cpEnd] s0 =
      .next { s0 with pk := .one 31, codeOut := [.eos], wordOut := [.w 7] } := rfl

theorem witness_ResetErasesHistory :
    execAll [.rstEnc 1, .cpPush 7] { s0 with cur := some 9, cnt := 9 } = .next { s1 with codeOut := [.w 7] } ∧
    execAll [.rstEnc 1, .cpPush 7] s1 = .next { s1 with codeOut := [.w 7] } ∧
    execAll [.rstDec, .lit 7] { s0 with dcPend := some 3 } = .next { s0 with wordOut := [.w 7] } ∧
    execAll [.rstDec, .lit 7] s0 = .next { s0 with wordOut := [.w 7] } := ⟨rfl, rfl, rfl, rfl⟩

end Sys2Proof.Tests
end

section
/-! SUPPORT. The Packer (spec/40_packer.md): what `PK.PUSH` and `PK.END` do in each case, what the batch function `pack`
answers, and the statements settled from these. -/

namespace Sys2Proof.Proofs.Packer

open Sys2Proof.Machine

variable {s : State}

/-! ### The operand check and the packed word -/

theorem legalIntensity_eq_false_iff (v : Nat) : legalIntensity v = false ↔ 31 < v := by
  rw [← Bool.not_eq_true, legalIntensity_iff, Nat.not_le]

/-- R111 with the shift of lane 0 left out. -/
theorem packw_eq_shifts (p0 p1 p2 : Lane) :
    packw p0 p1 p2 = (p2.setWidth 16 <<< 11) ||| (p1.setWidth 16 <<< 6) ||| p0.setWidth 16 := by
  simp [packw, Config.sh0, Config.sh1, Config.sh2]

theorem pkN_eq_zero_iff (s : State) : s.pkN = 0 ↔ s.pk = .empty := by
  unfold State.pkN
  cases s.pk <;> simp

/-! ### `PK.PUSH` (R112, R113) -/

theorem exec_pkPush_of_halted (v : Nat) (hh : s.encHalt = true) : exec (.pkPush v) s = .next s := by
  simp [exec, execPkPush, hh]

theorem exec_pkPush_of_illegal {v : Nat} (hh : s.encHalt = false) (hv : 31 < v) :
    exec (.pkPush v) s = .next (s.setStatus (s.status ||| 0b010#3)) := by
  simp [exec, execPkPush, hh, (legalIntensity_eq_false_iff v).mpr hv]

theorem exec_pkPush_first {v : Nat} (hh : s.encHalt = false) (hv : v ≤ 31) (hp : s.pk = .empty) :
    exec (.pkPush v) s = .next (s.setPk (.one (laneOf v))) := by
  simp [exec, execPkPush, hh, (legalIntensity_iff v).mpr hv, hp]

theorem exec_pkPush_second {v : Nat} {b0 : Lane} (hh : s.encHalt = false) (hv : v ≤ 31) (hp : s.pk = .one b0) :
    exec (.pkPush v) s = .next (s.setPk (.two b0 (laneOf v))) := by
  simp [exec, execPkPush, hh, (legalIntensity_iff v).mpr hv, hp]

theorem exec_pkPush_third {v : Nat} {b0 b1 : Lane} (hh : s.encHalt = false) (hv : v ≤ 31) (hp : s.pk = .two b0 b1) :
    exec (.pkPush v) s = exec (.cpPush (packw b0 b1 (laneOf v))) (s.setPk .empty) := by
  simp [exec, execPkPush, execCpPush, hh, (legalIntensity_iff v).mpr hv, hp]

/-- Only the port `PIX_IN` brings a `PK.PUSH`, and its payload fits the port (R57, R96). -/
theorem decode_eq_pkPush {W : IntW} {e : Encoding} {v : Nat} (h : decode W e = .ok (.pkPush v)) : v < 2 ^ W.bits := by
  cases e with
  | event e =>
    cases e with
    | pixData u =>
      simp only [decode, decodeEvent] at h
      split at h
      · cases h
        assumption
      · cases h
    | _ => cases h
  | code wait c =>
    cases wait
    · rcases code_class c with hc | hc | hc | hc
      · simp [decode, decodeCode_zero hc] at h
      · simp [decode, decodeCode_full hc] at h
      · simp [decode, decodeCode_gen hc] at h
      · simp [decode, decodeCode_literal hc] at h
    · simp [decode] at h
  | packed w => cases hp : pad w <;> simp [decode, decodePacked, hp] at h

/-- Settles O6: one case of R113 each. -/
theorem pkPushFillsTriple : Obligations.PkPushFillsTriple := by
  intro v s
  refine ⟨exec_pkPush_of_halted v, exec_pkPush_of_illegal, exec_pkPush_first, fun b0 => exec_pkPush_second, ?_⟩
  intro b0 b1 hh hv hp
  rw [exec_pkPush_third hh hv hp, packw_eq_shifts]
  rfl

/-- Settles O7: the intensity fault, and the payloads that five bits can hold. -/
theorem pkPushRejectsIntensity : Obligations.PkPushRejectsIntensity := by
  refine ⟨fun v s => exec_pkPush_of_illegal, fun W e v hW h => ?_⟩
  have hv := decode_eq_pkPush h
  rw [hW] at hv
  omega

/-! ### `PK.END` (R114) -/

theorem exec_pkEnd_of_halted (hh : s.encHalt = true) : exec .pkEnd s = .next s := by
  simp [exec, execPkEnd, hh]

theorem exec_pkEnd_of_partial (hh : s.encHalt = false) (hn : s.pkN ≠ 0) :
    exec .pkEnd s = .next (s.setStatus (s.status ||| 0b001#3)) := by
  rw [Ne, pkN_eq_zero_iff] at hn
  cases hp : s.pk with
  | empty => exact absurd hp hn
  | one b0 => simp [exec, execPkEnd, hh, hp]
  | two b0 b1 => simp [exec, execPkEnd, hh, hp]

theorem exec_pkEnd_of_empty (hh : s.encHalt = false) (hn : s.pkN = 0) : exec .pkEnd s = exec .cpEnd s := by
  simp [exec, execPkEnd, execCpEnd, hh, (pkN_eq_zero_iff s).mp hn]

/-- R134 under R26. -/
theorem exec_cpEnd_of_runValue (hh : s.encHalt = false) (hr : s.cur = none → s.cnt = 0#8) :
    exec .cpEnd s = .next (((s.emitCode ((finPending s.cur s.cnt).map .w)).setRun none 0#8).emitCode [.eos]) := by
  rw [← endWords_of_runValue hr]
  exact encOp_of_running _ hh

/-- Settles O9: one case of R114 each, the last through `CP.END`. -/
theorem pkEndChecksLength : Obligations.PkEndChecksLength := by
  intro s
  refine ⟨exec_pkEnd_of_halted, exec_pkEnd_of_partial, exec_pkEnd_of_empty, fun hh hn hr => ?_⟩
  exact (exec_pkEnd_of_empty hh hn).trans (exec_cpEnd_of_runValue hh hr.mp)

/-! ### The batch function `pack` (R116) -/

theorem packTriples_length : ∀ I : List Nat, (packTriples I).length = I.length / 3
  | [] => rfl
  | [_] => by simp [packTriples]
  | [_, _] => by simp [packTriples]
  | _ :: _ :: _ :: I => by
    simp only [packTriples, List.length_cons, packTriples_length I]
    omega

/-- Word `j` packs the elements `3j`, `3j+1`, `3j+2`. -/
theorem packTriples_getElem? : ∀ (I : List Nat) (j : Nat), j < I.length / 3 →
    (packTriples I)[j]? =
      some (packw (laneOf (I.getD (3 * j) 0)) (laneOf (I.getD (3 * j + 1) 0)) (laneOf (I.getD (3 * j + 2) 0)))
  | [], _, h => absurd h (by simp)
  | [_], _, h => absurd h (by simp)
  | [_, _], _, h => absurd h (by simp)
  | _ :: _ :: _ :: _, 0, _ => by simp [packTriples]
  | p0 :: p1 :: p2 :: I, j + 1, h => by
    have hj : j < I.length / 3 := by
      simp only [List.length_cons] at h
      omega
    simpa [packTriples, Nat.mul_add] using packTriples_getElem? I j hj

theorem all_legalIntensity_iff (I : List Nat) : I.all legalIntensity = true ↔ ∀ v ∈ I, v ≤ 31 := by
  simp only [List.all_eq_true, legalIntensity_iff]

theorem pack_of_illegal {I : List Nat} (h : ¬ ∀ v ∈ I, v ≤ 31) : pack I = .error .invalidIntensity := by
  rw [← all_legalIntensity_iff] at h
  simp only [pack, if_neg h]

theorem pack_of_badLength {I : List Nat} (h : ∀ v ∈ I, v ≤ 31) (hn : I.length % 3 ≠ 0) :
    pack I = .error .invalidInputLength := by
  simp only [pack, if_pos ((all_legalIntensity_iff I).mpr h), if_neg hn]

theorem pack_of_triples {I : List Nat} (h : ∀ v ∈ I, v ≤ 31) (hn : I.length % 3 = 0) :
    pack I = .ok (packTriples I) := by
  simp only [pack, if_pos ((all_legalIntensity_iff I).mpr h), if_pos hn]

theorem pack_eq_invalidIntensity_iff (I : List Nat) : pack I = .error .invalidIntensity ↔ ∃ v ∈ I, 31 < v := by
  by_cases h : ∀ v ∈ I, v ≤ 31
  · have hx : ¬ ∃ v ∈ I, 31 < v := fun ⟨v, hv, hlt⟩ => absurd (h v hv) (by omega)
    by_cases hn : I.length % 3 = 0
    · simp [pack_of_triples h hn, hx]
    · simp [pack_of_badLength h hn, hx]
  · simpa [pack_of_illegal h] using h

theorem pack_eq_invalidInputLength_iff (I : List Nat) :
    pack I = .error .invalidInputLength ↔ (∀ v ∈ I, v ≤ 31) ∧ I.length % 3 ≠ 0 := by
  by_cases h : ∀ v ∈ I, v ≤ 31
  · by_cases hn : I.length % 3 = 0
    · simp [pack_of_triples h hn, hn]
    · exact iff_of_true (pack_of_badLength h hn) ⟨h, hn⟩
  · simp [pack_of_illegal h, h]

theorem pack_eq_ok_iff (I : List Nat) (W : List Word) :
    pack I = .ok W ↔ (∀ v ∈ I, v ≤ 31) ∧ I.length % 3 = 0 ∧ packTriples I = W := by
  by_cases h : ∀ v ∈ I, v ≤ 31
  · by_cases hn : I.length % 3 = 0
    · rw [pack_of_triples h hn, Except.ok.injEq]
      exact ⟨fun hW => ⟨h, hn, hW⟩, fun ⟨_, _, hW⟩ => hW⟩
    · simp [pack_of_badLength h hn, hn]
  · simp [pack_of_illegal h, h]

/-- Settles O42: the result or failure of `pack` is read off the two checks of R116, and the words off `packTriples`. -/
theorem packContract : Obligations.PackContract := by
  intro I
  refine ⟨pack_eq_invalidIntensity_iff I, pack_eq_invalidInputLength_iff I, fun W hW => ?_,
    fun h hn => ⟨packTriples I, pack_of_triples h hn⟩⟩
  obtain ⟨-, -, rfl⟩ := (pack_eq_ok_iff I W).mp hW
  rw [packTriples_length]
  exact ⟨rfl, packTriples_getElem? I⟩

end Sys2Proof.Proofs.Packer
end

section
/-! SUPPORT. The Compressor (spec/41_compressor.md): what `CP.PUSH` and `CP.END` do in each case, the codes of a
finalized run, and the statements settled from these. -/

namespace Sys2Proof.Proofs.Compressor

open Sys2Proof.Machine Sys2Proof.Proofs.Packer

variable {s : State} {w V : Word} {L : Byte}

/-! ### When a word closes the pending run -/

@[simp] theorem extendsRun_zero (w : Word) (cur : Option Word) : extendsRun w cur 0#8 = false := by
  simp [extendsRun]

theorem extendsRun_eq_false_of_closes (h : w ≠ V ∨ L = 255#8) : extendsRun w (some V) L = false := by
  rw [← Bool.not_eq_true, extendsRun_iff, Option.some.injEq]
  rintro ⟨-, hV, hlt⟩
  rcases h with hne | rfl
  · exact hne hV.symm
  · exact absurd hlt (by decide)

theorem runValue_of_some (hv : s.cur = some V) : s.cur = none → s.cnt = 0#8 := by simp [hv]

/-! ### `CP.PUSH` (R131, R132, R133) -/

theorem exec_cpPush_of_halted (w : Word) (hh : s.encHalt = true) : exec (.cpPush w) s = .next s :=
  encOp_of_halted _ hh

theorem exec_cpPush_of_running (w : Word) (hh : s.encHalt = false) : exec (.cpPush w) s = takeWord w s :=
  encOp_of_running _ hh

theorem exec_cpPush_of_bypass (w : Word) (hh : s.encHalt = false) (hb : s.bypass = true) :
    exec (.cpPush w) s = .next (s.emitCode [.w w]) := by
  simp [exec_cpPush_of_running w hh, takeWord, hb]

theorem exec_cpPush_extending (hh : s.encHalt = false) (hb : s.bypass = false)
    (he : extendsRun w s.cur s.cnt = true) : exec (.cpPush w) s = .next (s.setRun s.cur (s.cnt + 1#8)) := by
  simp [exec_cpPush_of_running w hh, takeWord, hb, he]

theorem exec_cpPush_first (w : Word) (hh : s.encHalt = false) (hb : s.bypass = false) (hc : s.cnt = 0#8) :
    exec (.cpPush w) s = .next (s.setRun (some w) 1#8) := by
  have he : extendsRun w s.cur s.cnt = false := by simp [hc]
  rw [exec_cpPush_of_running w hh, takeWord_of_runValue (fun _ => hc) hb he, hc, finPending_zero, List.map_nil,
    emitCode_nil]

theorem exec_cpPush_closing (hh : s.encHalt = false) (hb : s.bypass = false) (hc : s.cnt ≠ 0#8) (hv : s.cur = some V)
    (hw : w ≠ V ∨ s.cnt = 255#8) :
    exec (.cpPush w) s = .next ((s.emitCode ((finCodes V s.cnt).map .w)).setRun (some w) 1#8) := by
  have he : extendsRun w s.cur s.cnt = false := by rw [hv, extendsRun_eq_false_of_closes hw]
  rw [exec_cpPush_of_running w hh, takeWord_of_runValue (runValue_of_some hv) hb he, hv, finPending_some V hc]

/-- Below the cap the count grows by one without wrapping, and stays in the range of R143. -/
theorem cnt_succ_bounds (hc : L ≠ 0#8) (hlt : L.toNat < 255) :
    (L + 1#8).toNat = L.toNat + 1 ∧ 2 ≤ (L + 1#8).toNat ∧ (L + 1#8).toNat ≤ 255 := by
  bv_omega

/-- Settles O11: one case of R131 to R133 each. -/
theorem cpPushTransition : Obligations.CpPushTransition := by
  intro w s
  refine ⟨exec_cpPush_of_halted w, exec_cpPush_of_bypass w, ?_, exec_cpPush_first w,
    fun V => exec_cpPush_closing⟩
  intro hh hb hc hv hlt
  have he : extendsRun w s.cur s.cnt = true := (extendsRun_iff ..).mpr ⟨hc, hv, BitVec.lt_def.mpr hlt⟩
  exact ⟨exec_cpPush_extending hh hb he, cnt_succ_bounds hc hlt⟩

/-! ### `CP.END` (R134) -/

theorem exec_cpEnd_of_halted (hh : s.encHalt = true) : exec .cpEnd s = .next s :=
  encOp_of_halted _ hh

theorem exec_cpEnd_idle (hh : s.encHalt = false) (hc : s.cnt = 0#8) :
    exec .cpEnd s = .next ((s.setRun none 0#8).emitCode [.eos]) := by
  rw [exec_cpEnd_of_runValue hh fun _ => hc, hc, finPending_zero, List.map_nil, emitCode_nil]

theorem exec_cpEnd_closing (hh : s.encHalt = false) (hc : s.cnt ≠ 0#8) (hv : s.cur = some V) :
    exec .cpEnd s = .next (((s.emitCode ((finCodes V s.cnt).map .w)).setRun none 0#8).emitCode [.eos]) := by
  rw [exec_cpEnd_of_runValue hh (runValue_of_some hv), hv, finPending_some V hc]

/-- Writing the reset values over a run that holds them already changes nothing. -/
theorem setRun_none_of_idle (hv : s.cur = none) (hc : s.cnt = 0#8) : s.setRun none 0#8 = s := by
  rw [← hv, ← hc]
  rfl

/-- In bypass there is never a pending run (R26, R31), so `CP.END` only emits `EOS`. -/
theorem exec_cpEnd_of_bypass (hh : s.encHalt = false) (hb : s.bypass = true) (hi : s.Inv) :
    exec .cpEnd s = .next (s.emitCode [.eos]) := by
  obtain ⟨hr, hbc, -⟩ := hi
  have hc : s.cnt = 0#8 := hbc hb
  rw [exec_cpEnd_idle hh hc, setRun_none_of_idle (hr.mpr hc) hc]

/-- Settles O12: one case of R134 each. -/
theorem cpEndFlushesRun : Obligations.CpEndFlushesRun := by
  intro s
  exact ⟨exec_cpEnd_of_halted, exec_cpEnd_idle, fun V => exec_cpEnd_closing, exec_cpEnd_of_bypass⟩

/-! ### The codes of a finalized run (R135 to R138) -/

theorem finCodes_one (V : Word) : finCodes V 1#8 = [V] := rfl

theorem finCodes_zero (hL : L ≠ 1#8) : finCodes Config.vZero L = [escape L Config.sentZero] := by
  simp [finCodes, hL]

theorem finCodes_full (hL : L ≠ 1#8) : finCodes Config.vFull L = [escape L Config.sentFull] := by
  simp [finCodes, hL, show Config.vFull ≠ Config.vZero by decide]

theorem finCodes_generic (hL : L ≠ 1#8) (hz : V ≠ Config.vZero) (hf : V ≠ Config.vFull) :
    finCodes V L = [escape L Config.sentGen, V] := by
  simp [finCodes, hL, hz, hf]

/-- Settles O13: one case of R135 to R138 each, and the two operations that finalize a run. -/
theorem runEmission : Obligations.RunEmission := by
  intro V L
  have ne_one (h : 1 < L.toNat) : L ≠ 1#8 := by bv_omega
  refine ⟨?_, ?_, ?_, ?_, ?_⟩
  · intro h
    rw [BitVec.eq_of_toNat_eq (y := 1#8) h, finCodes_one]
  · rintro h rfl
    exact finCodes_zero (ne_one h)
  · rintro h rfl
    exact finCodes_full (ne_one h)
  · intro h hz hf
    exact finCodes_generic (ne_one h) hz hf
  · rintro s hh hv rfl hL
    have hc : s.cnt ≠ 0#8 := by bv_omega
    exact ⟨exec_cpEnd_closing hh hc hv, fun w hb hw => exec_cpPush_closing hh hb hc hv hw⟩

end Sys2Proof.Proofs.Compressor
end

section
/-! SUPPORT. The Decoder (spec/42_decoder.md): what a code does in escape position and as the operand of a pending run,
what `DC.END` does, and the statements settled from these. -/

namespace Sys2Proof.Proofs.Decoder

open Sys2Proof.Machine

variable {s : State}

/-! ### A code on a path that is not halted (R161) -/

theorem decOp_orOperand_escapePosition (c : Word) (k : State → State) (hh : s.decHalt = false)
    (hd : s.dcPend = none) : decOp (orOperand c k) s = .next (k s) := by
  rw [decOp_of_running _ hh, orOperand_escapePosition c k hd]

theorem decOp_orOperand_waiting {n : Byte} (c : Word) (k : State → State) (hh : s.decHalt = false)
    (hd : s.dcPend = some n) : decOp (orOperand c k) s = .next ((emitCopies c n s).setDcPend none) := by
  rw [decOp_of_running _ hh, orOperand_waiting c k hd]

theorem exec_dcPush_escapePosition (c : Word) (hh : s.decHalt = false) (hd : s.dcPend = none) :
    exec (.dcPush c) s = .next (escapePosition c s) :=
  decOp_orOperand_escapePosition c _ hh hd

/-! ### The codes in escape position (R162 to R165) -/

theorem escapePosition_append_zero (n : Byte) (s : State) :
    escapePosition (n ++ 0xFF#8) s = emitCopies 0x0000#16 n s := by
  rw [escapePosition_zero (lo_append n 0xFF#8), hi_append]
  rfl

theorem escapePosition_append_full (n : Byte) (s : State) :
    escapePosition (n ++ 0xFE#8) s = emitCopies 0xFFDF#16 n s := by
  rw [escapePosition_full (lo_append n 0xFE#8), hi_append]
  rfl

theorem escapePosition_append_gen (n : Byte) (s : State) :
    escapePosition (n ++ 0xF0#8) s = s.setDcPend (some n) := by
  rw [escapePosition_gen (lo_append n 0xF0#8), hi_append]

/-- Settles O14: the low byte is none of the three sentinels, so the code is the literal case of R161. -/
theorem literalIsAppended : Obligations.LiteralIsAppended := by
  intro v s hh hd hz hf hg
  have hlit : isSentinel (lo v) = false := (isSentinel_false_iff _).mpr ⟨hz, hf, hg⟩
  refine ⟨decOp_orOperand_escapePosition v _ hh hd, ?_⟩
  rw [exec_dcPush_escapePosition v hh hd, escapePosition_literal hlit]
  rfl

/-- Settles O15: the row emits the copies, and the code `n ++ 0xFF` is classified by its low byte with count `n`. -/
theorem zeroRunIsExpanded : Obligations.ZeroRunIsExpanded := by
  intro n s hh hd
  refine ⟨decOp_orOperand_escapePosition _ _ hh hd, ?_⟩
  rw [exec_dcPush_escapePosition _ hh hd, escapePosition_append_zero]
  rfl

/-- Settles O16: as for the zero run, with the sentinel 0xFE and the word 0xFFDF. -/
theorem fullRunIsExpanded : Obligations.FullRunIsExpanded := by
  intro n s hh hd
  refine ⟨decOp_orOperand_escapePosition _ _ hh hd, ?_⟩
  rw [exec_dcPush_escapePosition _ hh hd, escapePosition_append_full]
  rfl

/-- Settles O17: the low byte 0xF0 only records the high byte as the pending count. -/
theorem genericRunIsRecorded : Obligations.GenericRunIsRecorded := by
  intro n s hh hd
  refine ⟨decOp_orOperand_escapePosition _ _ hh hd, ?_⟩
  rw [exec_dcPush_escapePosition _ hh hd, escapePosition_append_gen]
  rfl

/-! ### The operand of a pending run (R166) -/

/-- Settles O18: the test of `dc_wait` comes before any look at the low byte. -/
theorem genericRunOperandIsRepeated : Obligations.GenericRunOperandIsRepeated := by
  intro c n s hh hd
  exact ⟨decOp_orOperand_waiting c _ hh hd, decOp_orOperand_waiting c _ hh hd⟩

/-! ### `DC.END` (R167) -/

theorem exec_dcEnd_of_halted (hh : s.decHalt = true) : exec .dcEnd s = .next s := by
  simp [exec, execDcEnd, hh]

theorem exec_dcEnd_waiting (hh : s.decHalt = false) (hw : s.dcWait = true) :
    exec .dcEnd s = .next (s.setStatus (s.status ||| 0b100#3)) := by
  simp [exec, execDcEnd, hh, hw]

theorem exec_dcEnd_idle (hh : s.decHalt = false) (hw : s.dcWait = false) :
    exec .dcEnd s = .next (s.emitWord [.eos]) := by
  simp [exec, execDcEnd, hh, hw]

/-- Settles O21: one case of R167 each. -/
theorem dcEndChecksOperand : Obligations.DcEndChecksOperand := by
  intro s
  exact ⟨exec_dcEnd_of_halted, exec_dcEnd_waiting, exec_dcEnd_idle⟩

end Sys2Proof.Proofs.Decoder
end

section
/-! SUPPORT. The resets (spec/43_system.md): the state each leaves, what the halt of the ENC path can be after an operation
that does not reset that path, and the statements settled from these. -/

namespace Sys2Proof.Proofs.System

open Sys2Proof.Machine

variable {s t : State} {i : Instr}

/-! ### The resets (R190 to R192) -/

theorem exec_rstEnc (b : BitVec 1) (s : State) : exec (.rstEnc b) s = .next (resetEnc b s) := rfl

theorem exec_rstDec (s : State) : exec .rstDec s = .next (resetDec s) := rfl

theorem exec_rstAll (b : BitVec 1) (s : State) : exec (.rstAll b) s = .next (resetDec (resetEnc b s)) := rfl

/-- The two resets together clear all three flags (R31). -/
theorem clearDecFlags_clearEncFlags (v : BitVec 3) : clearDecFlags (clearEncFlags v) = 0#3 := by
  rw [clearDecFlags, clearEncFlags, BitVec.and_assoc]
  exact BitVec.and_zero

theorem resetDec_resetEnc (b : BitVec 1) (s : State) :
    resetDec (resetEnc b s) =
      { s with pk := .empty, cur := none, cnt := 0#8, dcPend := none, status := 0#3, cfg := b } := by
  rw [← clearDecFlags_clearEncFlags s.status]
  rfl

/-! ### The halt of the ENC path (R33, R190) -/

/-- Setting `ERR_TRUNC` leaves the two ENC flags. -/
theorem encHalt_raise_truncated (s : State) : (raise .truncatedStream s).encHalt = s.encHalt := by
  simp [State.encHalt, State.errLen, State.errInt]

/-- `RST.DEC` does not touch the ENC flags (R191). -/
theorem encHalt_resetDec (s : State) : (resetDec s).encHalt = s.encHalt := by
  simp [resetDec, clearDecFlags, State.encHalt, State.errLen, State.errInt]

/-- A halted ENC path stays halted under every operation but the resets of the path: its own operations are ignored
(R244), and those of the DEC path and the reads leave its flags. -/
theorem exec_keeps_encHalt (hne : ∀ b, i ≠ .rstEnc b ∧ i ≠ .rstAll b) (hs : s.encHalt = true)
    (h : exec i s = .next t) : t.encHalt = true := by
  cases exec_eq_next h with
  | encIgnored _ _ _ ht => rwa [ht]
  | decIgnored _ _ _ ht => rwa [ht]
  | encEffect _ _ _ he => obtain ⟨hh, -⟩ := he; simp [hh] at hs
  | decEffect _ _ _ hd => obtain ⟨-, p, ts, rfl⟩ := hd; simpa using hs
  | lengthFault _ hh => simp [hh] at hs
  | intensityFault v _ _ hh => simp [hh] at hs
  | truncatedFault _ _ _ ht => rwa [ht, ← raise_truncated, encHalt_raise_truncated]
  | resetEnc b hi => exact absurd hi (hne b).1
  | resetDec _ ht => rwa [ht, encHalt_resetDec]
  | resetAll b hi => exact absurd hi (hne b).2
  | read r _ ht => simpa [ht] using hs

/-- Settles O1: R190's whole-state equation is the definition of the reset, and no other operation ends the halt. -/
theorem resetEncClearsEncPath : Obligations.ResetEncClearsEncPath := by
  refine ⟨exec_rstEnc, fun i s t hs h ht => ?_⟩
  by_contra hne
  have hkeep : t.encHalt = true :=
    exec_keeps_encHalt (fun b => ⟨fun hi => hne ⟨b, .inl hi⟩, fun hi => hne ⟨b, .inr hi⟩⟩) hs h
  simp [ht] at hkeep

/-- Settles O2: R191's whole-state equation is the definition of the reset. -/
theorem resetDecClearsDecPath : Obligations.ResetDecClearsDecPath := exec_rstDec

/-- Settles O3: the two path resets in sequence, whose masks leave no flag set. -/
theorem resetAllIsBothResets : Obligations.ResetAllIsBothResets := by
  intro b s
  refine ⟨?_, ?_⟩
  · rw [exec_rstAll, resetDec_resetEnc]
  · rw [exec_rstEnc, andThen_next, exec_rstDec, exec_rstAll]

end Sys2Proof.Proofs.System
end

section
/-! SUPPORT. The properties of packed words, of the batch functions and of the round trip (spec/44_properties.md): a
packed word as a sum, what `decode` answers for the codes of one run, `compress` as the codes of its runs, and the
statements settled from these. -/

namespace Sys2Proof.Proofs.Properties

open Sys2Proof.Machine Sys2Proof.Proofs.Packer Sys2Proof.Proofs.Compressor

variable {w V c : Word} {L cnt : Byte} {cur : Option Word} {W : List Word}

/-! ### Packed words (R211, R212)

The lanes are digits of the word's value, so the laws of `packw` and `unpack` are arithmetic. -/

/-- R111 as arithmetic: the shifted lanes do not overlap, so their join is a sum. -/
theorem packw_toNat (p0 p1 p2 : Lane) :
    (packw p0 p1 p2).toNat = p2.toNat * 2 ^ 11 + p1.toNat * 2 ^ 6 + p0.toNat := by
  have hlow : p1.toNat <<< 6 ||| p0.toNat = p1.toNat <<< 6 + p0.toNat :=
    (Nat.shiftLeft_add_eq_or_of_lt (by omega) _).symm
  have hall : p2.toNat <<< 11 ||| (p1.toNat <<< 6 + p0.toNat) = p2.toNat <<< 11 + (p1.toNat <<< 6 + p0.toNat) :=
    (Nat.shiftLeft_add_eq_or_of_lt (by omega) _).symm
  rw [packw_eq_shifts, BitVec.or_assoc]
  simp (disch := omega) only [BitVec.toNat_or, BitVec.toNat_shiftLeft, BitVec.toNat_setWidth, Nat.mod_eq_of_lt, hlow, hall]
  omega

theorem getLsbD_five_eq_false_iff (w : Word) : w.getLsbD 5 = false ↔ w.toNat / 2 ^ 5 % 2 = 0 := by
  rw [BitVec.getLsbD, Nat.testBit_eq_decide_div_mod_eq]
  simp

/-- R80: the reserved bit of a packed word is 0. -/
theorem packw_getLsbD_five (p0 p1 p2 : Lane) : (packw p0 p1 p2).getLsbD 5 = false := by
  rw [getLsbD_five_eq_false_iff, packw_toNat]
  omega

theorem unpack_packw (p0 p1 p2 : Lane) : unpack (packw p0 p1 p2) = (p0, p1, p2) := by
  simp only [unpack, Prod.mk.injEq, ← BitVec.toNat_inj, BitVec.extractLsb'_toNat, packw_toNat, Nat.shiftRight_eq_div_pow]
  omega

/-- The lanes of a word put together again are the word but for bit 5. -/
theorem packw_unpack_iff (w : Word) :
    packw (unpack w).1 (unpack w).2.1 (unpack w).2.2 = w ↔ w.getLsbD 5 = false := by
  rw [getLsbD_five_eq_false_iff, ← BitVec.toNat_inj, packw_toNat]
  simp only [unpack, BitVec.extractLsb'_toNat, Nat.shiftRight_eq_div_pow]
  omega

/-- R210, R212: the three sentinel bytes all have bit 5 set. -/
theorem isSentinel_lo_of_five_clear (h : w.getLsbD 5 = false) : isSentinel (lo w) = false := by
  have hlo : (lo w).getLsbD 5 = false := by simpa [lo] using h
  have ne_of_set (b : Byte) (hb : b.getLsbD 5 = true) : lo w ≠ b := by
    rintro rfl
    exact Bool.noConfusion (hb.symm.trans hlo)
  exact (isSentinel_false_iff _).mpr
    ⟨ne_of_set Config.sentZero rfl, ne_of_set Config.sentFull rfl, ne_of_set Config.sentGen rfl⟩

/-- Settles O40: bit 5 of a packed word is 0 and of a sentinel byte 1; the value is the sum of R111. -/
theorem packedWordsAreNeverEscapes : Obligations.PackedWordsAreNeverEscapes := by
  intro p0 p1 p2
  have hs : isSentinel (lo (packw p0 p1 p2)) = false := isSentinel_lo_of_five_clear (packw_getLsbD_five p0 p1 p2)
  obtain ⟨hz, hf, hg⟩ := (isSentinel_false_iff _).mp hs
  refine ⟨hz, hf, hg, packw_getLsbD_five p0 p1 p2, decodeCode_literal hs, packw_toNat p0 p1 p2, ?_⟩
  rw [packw_toNat]
  omega

/-- A legal intensity fits its lane. -/
theorem laneOf_toNat {p : Nat} (h : p ≤ 31) : (laneOf p).toNat = p := by
  rw [laneOf, BitVec.toNat_ofNat]
  omega

theorem unpackAll_packw (p0 p1 p2 : Lane) : unpackAll [packw p0 p1 p2] = [p0.toNat, p1.toNat, p2.toNat] := by
  simp [unpackAll, unpack_packw]

/-- Settles O41: three legal intensities are one complete triple, and each direction is a law of `packw` and `unpack`. -/
theorem unpackRecoversTriple : Obligations.UnpackRecoversTriple := by
  refine ⟨fun p0 p1 p2 h0 h1 h2 => ⟨?_, ?_⟩, unpack_packw, packw_unpack_iff⟩
  · exact pack_of_triples (by simp [h0, h1, h2]) (by simp)
  · rw [unpackAll_packw, laneOf_toNat h0, laneOf_toNat h1, laneOf_toNat h2]

/-! ### What `decode` answers for a code and for the codes of a run (R161, R168) -/

theorem decodeStream_zero (h : lo c = Config.sentZero) (S : List Word) :
    decodeStream (c :: S) = (decodeStream S).map (List.replicate (hi c).toNat Config.vZero ++ ·) := by
  rw [decodeStream.eq_def (c :: S)]
  simp [h]

theorem decodeStream_full (h : lo c = Config.sentFull) (S : List Word) :
    decodeStream (c :: S) = (decodeStream S).map (List.replicate (hi c).toNat Config.vFull ++ ·) := by
  rw [decodeStream.eq_def (c :: S)]
  simp [h, show Config.sentFull ≠ Config.sentZero by decide]

theorem decodeStream_gen (h : lo c = Config.sentGen) (v : Word) (S : List Word) :
    decodeStream (c :: v :: S) = (decodeStream S).map (List.replicate (hi c).toNat v ++ ·) := by
  simp [decodeStream, h, show Config.sentGen ≠ Config.sentZero by decide,
    show Config.sentGen ≠ Config.sentFull by decide]

theorem decodeStream_literal (h : isSentinel (lo c) = false) (S : List Word) :
    decodeStream (c :: S) = (decodeStream S).map ([c] ++ ·) := by
  obtain ⟨hz, hf, hg⟩ := (isSentinel_false_iff _).mp h
  rw [decodeStream.eq_def (c :: S)]
  simp [hz, hf, hg]

/-- The codes of a run decode to the run's words, unless the run has length one and its word reads as an escape. -/
theorem decodeStream_finCodes (h : L = 1#8 → isSentinel (lo V) = false) (S : List Word) :
    decodeStream (finCodes V L ++ S) = (decodeStream S).map (List.replicate L.toNat V ++ ·) := by
  by_cases hL : L = 1#8
  · rw [hL, finCodes_one, List.singleton_append, decodeStream_literal (h hL)]
    rfl
  by_cases hz : V = Config.vZero
  · rw [hz, finCodes_zero hL, List.singleton_append, decodeStream_zero (lo_escape ..), hi_escape]
  by_cases hf : V = Config.vFull
  · rw [hf, finCodes_full hL, List.singleton_append, decodeStream_full (lo_escape ..), hi_escape]
  · rw [finCodes_generic hL hz hf, List.cons_append, List.singleton_append, decodeStream_gen (lo_escape ..), hi_escape]

/-- The codes `compress` emits for a run `(V, L)` (R221). -/
def runCodes (r : Word × Byte) : List Word := finCodes r.1 r.2

/-- The words a run `(V, L)` stands for (R221). -/
def runWords (r : Word × Byte) : List Word := List.replicate r.2.toNat r.1

/-- The codes of a list of runs decode to the words of the runs, if no run of one reads as an escape. -/
theorem decodeStream_flatMap_runCodes (rs : List (Word × Byte))
    (h : ∀ r ∈ rs, r.2 = 1#8 → isSentinel (lo r.1) = false) :
    decodeStream (rs.flatMap runCodes) = .ok (rs.flatMap runWords) := by
  induction rs with
  | nil => rfl
  | cons r rs ih =>
    obtain ⟨hr, hrs⟩ := List.forall_mem_cons.mp h
    rw [List.flatMap_cons, runCodes, decodeStream_finCodes hr, ih hrs, List.flatMap_cons]
    rfl

/-! ### The runs of a sequence (R140, R221) -/

@[simp] theorem pendingRun_zero (cur : Option Word) : pendingRun cur 0#8 = [] := by
  cases cur <;> rfl

theorem pendingRun_some (v : Word) (h : cnt ≠ 0#8) : pendingRun (some v) cnt = [(v, cnt)] := by
  simp [pendingRun, h]

theorem finPending_eq_flatMap (cur : Option Word) (cnt : Byte) :
    finPending cur cnt = (pendingRun cur cnt).flatMap runCodes := by
  cases cur with
  | none => rfl
  | some v =>
    by_cases hc : cnt = 0#8
    · simp [hc]
    · simp [runCodes, finPending_some v hc, pendingRun_some v hc]

theorem compressFrom_extending (h : extendsRun w cur cnt = true) (W : List Word) :
    compressFrom cur cnt (w :: W) = compressFrom cur (cnt + 1#8) W := by
  simp [compressFrom, h]

theorem compressFrom_closing (h : extendsRun w cur cnt = false) (W : List Word) :
    compressFrom cur cnt (w :: W) = finPending cur cnt ++ compressFrom (some w) 1#8 W := by
  simp [compressFrom, h]

theorem runsFrom_extending (h : extendsRun w cur cnt = true) (W : List Word) :
    runsFrom cur cnt (w :: W) = runsFrom cur (cnt + 1#8) W := by
  simp [runsFrom, h]

theorem runsFrom_closing (h : extendsRun w cur cnt = false) (W : List Word) :
    runsFrom cur cnt (w :: W) = pendingRun cur cnt ++ runsFrom (some w) 1#8 W := by
  simp [runsFrom, h]

theorem compressFrom_eq_flatMap_runsFrom (cur : Option Word) (cnt : Byte) (W : List Word) :
    compressFrom cur cnt W = (runsFrom cur cnt W).flatMap runCodes := by
  induction W generalizing cur cnt with
  | nil => exact finPending_eq_flatMap cur cnt
  | cons w W ih =>
    cases he : extendsRun w cur cnt
    · rw [compressFrom_closing he, runsFrom_closing he, List.flatMap_append, finPending_eq_flatMap, ih]
    · rw [compressFrom_extending he, runsFrom_extending he, ih]

theorem compress_eq_flatMap_runs (W : List Word) : compress W = (runs W).flatMap runCodes :=
  compressFrom_eq_flatMap_runsFrom none 0#8 W

/-- A word that extends the pending run is one more copy at its end: the count does not wrap below the cap (R10, R132). -/
theorem pendingRun_words_extending (h : extendsRun w cur cnt = true) :
    (pendingRun cur (cnt + 1#8)).flatMap runWords = (pendingRun cur cnt).flatMap runWords ++ [w] := by
  obtain ⟨hc, rfl, hlt⟩ := (extendsRun_iff ..).mp h
  obtain ⟨hsucc, -⟩ := cnt_succ_bounds hc hlt
  simp [runWords, pendingRun_some w hc, pendingRun_some w (cnt_succ_ne_zero hlt), hsucc, List.replicate_succ']

/-- The scan loses no word: its runs hold the words of the pending run and then those still to come. -/
theorem runsFrom_words (cur : Option Word) (cnt : Byte) (W : List Word) :
    (runsFrom cur cnt W).flatMap runWords = (pendingRun cur cnt).flatMap runWords ++ W := by
  induction W generalizing cur cnt with
  | nil => exact (List.append_nil _).symm
  | cons w W ih =>
    cases he : extendsRun w cur cnt
    · rw [runsFrom_closing he, List.flatMap_append, ih]
      rfl
    · rw [runsFrom_extending he, ih, pendingRun_words_extending he, List.append_assoc, List.singleton_append]

theorem runs_words (W : List Word) : (runs W).flatMap runWords = W :=
  runsFrom_words none 0#8 W

/-- The word of a run that is not empty is a word of the sequence. -/
theorem mem_of_mem_runs {r : Word × Byte} (hr : r ∈ runs W) (hpos : r.2 ≠ 0#8) : r.1 ∈ W := by
  rw [← runs_words W]
  refine List.mem_flatMap.mpr ⟨r, hr, List.mem_replicate.mpr ⟨?_, rfl⟩⟩
  bv_omega

/-! ### The round trip (R210) -/

theorem decodeStream_compress_of_runs (h : ∀ r ∈ runs W, r.2 = 1#8 → isSentinel (lo r.1) = false) :
    decodeStream (compress W) = .ok W := by
  rw [compress_eq_flatMap_runs, decodeStream_flatMap_runCodes _ h, runs_words]

/-- Settles O44: `compress` emits the codes of the runs, these decode to the words of the runs, and these are the
sequence. -/
theorem decodeInvertsCompress : Obligations.DecodeInvertsCompress := by
  refine ⟨fun W hW => decodeStream_compress_of_runs fun r hr h1 => hW _ (mem_of_mem_runs hr (by simp [h1])),
    fun W h w hw => isSentinel_lo_of_five_clear (h w hw), ?_, ?_, fun W => decodeStream_compress_of_runs⟩
  · decide
  · decide

/-! ### The vectors of the source (R213 to R218) -/

/-- Copies of the pending word up to the cap of 255 only lengthen the run (R132). -/
theorem compressFrom_replicate_append (v : Word) (n : Nat) (cnt : Byte) (hc : cnt ≠ 0#8) (hn : cnt.toNat + n ≤ 255)
    (W : List Word) :
    compressFrom (some v) cnt (List.replicate n v ++ W) = compressFrom (some v) (cnt + BitVec.ofNat 8 n) W := by
  induction n generalizing cnt with
  | zero => simp
  | succ n ih =>
    have hlt : cnt < 255#8 := BitVec.lt_def.mpr (by simp; omega)
    obtain ⟨hsucc, -⟩ := cnt_succ_bounds hc hlt
    rw [List.replicate_succ, List.cons_append, compressFrom_extending ((extendsRun_iff ..).mpr ⟨hc, rfl, hlt⟩),
      ih _ (cnt_succ_ne_zero hlt) (by omega), BitVec.add_assoc, ← BitVec.ofNat_add, Nat.add_comm 1]

theorem compress_cons (w : Word) (W : List Word) : compress (w :: W) = compressFrom (some w) 1#8 W := by
  rw [compress, compressFrom_closing (extendsRun_zero w none), finPending_zero, List.nil_append]

/-- Equal words from the first one on, at most 255 of them, are one pending run. -/
theorem compress_replicate_append (v : Word) {n : Nat} (h1 : 1 ≤ n) (hn : n ≤ 255) (W : List Word) :
    compress (List.replicate n v ++ W) = compressFrom (some v) (BitVec.ofNat 8 n) W := by
  obtain ⟨m, rfl⟩ := Nat.exists_eq_add_of_le h1
  rw [Nat.add_comm, List.replicate_succ, List.cons_append, compress_cons,
    compressFrom_replicate_append v m 1#8 (by decide) (by simp; omega), ← BitVec.ofNat_add, Nat.add_comm]

/-- R139: a run of 255 is closed by the next word, whatever it is, and the scan begins anew with that word. -/
theorem compress_replicate_cap_append (v w : Word) (W : List Word) :
    compress (List.replicate 255 v ++ w :: W) = finCodes v 255#8 ++ compress (w :: W) := by
  rw [compress_replicate_append v (by decide) (by decide),
    compressFrom_closing (extendsRun_eq_false_of_closes (.inr rfl)), finPending_some v (by decide), compress_cons]

/-- A sequence of at most 255 equal words is one run. -/
theorem compress_replicate (v : Word) {n : Nat} (h1 : 1 ≤ n) (hn : n ≤ 255) :
    compress (List.replicate n v) = finCodes v (BitVec.ofNat 8 n) := by
  rw [← List.append_nil (List.replicate n v), compress_replicate_append v h1 hn]
  exact finPending_some v (by bv_omega)

/-- R217: 300 equal words are a run of 255 and a run of 45. -/
theorem compress_replicate_300 (v : Word) : compress (List.replicate 300 v) = finCodes v 255#8 ++ finCodes v 45#8 := by
  calc compress (List.replicate 300 v)
      = compress (List.replicate 255 v ++ v :: List.replicate 44 v) := by
        rw [← List.replicate_succ, List.replicate_append_replicate]
    _ = finCodes v 255#8 ++ compress (List.replicate 45 v) := compress_replicate_cap_append v v _
    _ = finCodes v 255#8 ++ finCodes v 45#8 := by rw [compress_replicate v (by decide) (by decide)]

/-- R36: no ENC flag is set after a reset. -/
theorem encHalt_resetWith (b : BitVec 1) : (State.resetWith b).encHalt = false := by
  simp [State.encHalt, State.errLen, State.errInt, State.resetWith]

/-- Settles O43: the short vectors run, the long one is its two runs, and `CP.END` from reset finds no run to close. -/
theorem compressVectors : Obligations.CompressVectors := by
  refine ⟨by decide, by decide, by decide, by decide, by decide, ?_, rfl, rfl, rfl,
    fun b => exec_cpEnd_idle (encHalt_resetWith b) rfl⟩
  rw [compress_replicate_300]
  decide

end Sys2Proof.Proofs.Properties
end

section
/-! SUPPORT. The faults and the halts (spec/60_exceptions.md): what a flag of `STATUS` reads after a fault and after a reset,
what one operation can do to the flags, and the statements settled from these. -/

namespace Sys2Proof.Proofs.Exceptions

open Sys2Proof.Machine Sys2Proof.Proofs.Packer Sys2Proof.Proofs.Decoder

variable {s t : State} {i : Instr}

/-! ### The flag of a fault (R31, R240) -/

/-- The flag of `STATUS` that records fault `f`. -/
def flag (s : State) : PathFault → Bool
  | .invalidInputLength => s.errLen
  | .invalidIntensity => s.errInt
  | .truncatedStream => s.errTrunc

theorem flag_eq_getLsbD (s : State) (f : PathFault) : flag s f = s.status.getLsbD f.bit := by
  cases f <;> rfl

theorem getLsbD_withFlag (f g : PathFault) :
    ∀ v : BitVec 3, (withFlag f v).getLsbD g.bit = (decide (f = g) || v.getLsbD g.bit) := by
  cases f <;> cases g <;> decide

theorem getLsbD_clearEncFlags (f : PathFault) :
    ∀ v : BitVec 3, (clearEncFlags v).getLsbD f.bit = (decide (f = .truncatedStream) && v.getLsbD f.bit) := by
  cases f <;> decide

theorem getLsbD_clearDecFlags (f : PathFault) :
    ∀ v : BitVec 3, (clearDecFlags v).getLsbD f.bit = (decide (f ≠ .truncatedStream) && v.getLsbD f.bit) := by
  cases f <;> decide

/-- A fault sets its own flag and no other (R243). -/
theorem flag_raise (f g : PathFault) (s : State) : flag (raise f s) g = (decide (f = g) || flag s g) := by
  rw [flag_eq_getLsbD, flag_eq_getLsbD, raise, setStatus_status, getLsbD_withFlag]

/-- `RST.ENC` keeps `ERR_TRUNC` alone (R190). -/
theorem flag_resetEnc (b : BitVec 1) (s : State) (f : PathFault) :
    flag (resetEnc b s) f = (decide (f = .truncatedStream) && flag s f) := by
  rw [flag_eq_getLsbD, flag_eq_getLsbD, resetEnc, setCfg_status, setStatus_status, getLsbD_clearEncFlags]

/-- `RST.DEC` clears `ERR_TRUNC` alone (R191). -/
theorem flag_resetDec (s : State) (f : PathFault) :
    flag (resetDec s) f = (decide (f ≠ .truncatedStream) && flag s f) := by
  rw [flag_eq_getLsbD, flag_eq_getLsbD, resetDec, setStatus_status, getLsbD_clearDecFlags]

/-! ### What one operation can do to the flags -/

/-- The operation that raises each fault, and on which condition (R240). -/
def RaisedBy (i : Instr) (s : State) : PathFault → Prop
  | .invalidInputLength => i = .pkEnd ∧ s.pkN ≠ 0
  | .invalidIntensity => ∃ v, i = .pkPush v ∧ 31 < v
  | .truncatedStream => i = .dcEnd ∧ s.dcWait = true

/-- The operations that clear each fault's flag, and the idle path they leave (R250). -/
def ClearedBy (i : Instr) (t : State) : PathFault → Prop
  | .invalidInputLength => (∃ b, i = .rstEnc b ∨ i = .rstAll b) ∧ t.encIdle
  | .invalidIntensity => (∃ b, i = .rstEnc b ∨ i = .rstAll b) ∧ t.encIdle
  | .truncatedStream => (i = .rstDec ∨ ∃ b, i = .rstAll b) ∧ t.decIdle

/-- Every flag keeps its value, but for those that a reset of their path clears. -/
def FlagsKeptOrCleared (i : Instr) (s t : State) : Prop :=
  ∀ f, flag t f = flag s f ∨ (flag t f = false ∧ ClearedBy i t f)

theorem flagsKeptOrCleared_of_status_eq (h : t.status = s.status) : FlagsKeptOrCleared i s t :=
  fun f => .inl (by rw [flag_eq_getLsbD, flag_eq_getLsbD, h])

theorem resetEnc_flags (b : BitVec 1) (s : State) : FlagsKeptOrCleared (.rstEnc b) s (resetEnc b s)
  | .invalidInputLength => .inr ⟨flag_resetEnc b s _, ⟨b, .inl rfl⟩, rfl, rfl, rfl⟩
  | .invalidIntensity => .inr ⟨flag_resetEnc b s _, ⟨b, .inl rfl⟩, rfl, rfl, rfl⟩
  | .truncatedStream => .inl (flag_resetEnc b s _)

theorem resetDec_flags (s : State) : FlagsKeptOrCleared .rstDec s (resetDec s)
  | .invalidInputLength => .inl (flag_resetDec s _)
  | .invalidIntensity => .inl (flag_resetDec s _)
  | .truncatedStream => .inr ⟨flag_resetDec s _, .inl rfl, rfl⟩

theorem flag_resetAll (b : BitVec 1) (s : State) (f : PathFault) : flag (resetDec (resetEnc b s)) f = false := by
  rw [flag_resetDec, flag_resetEnc]
  cases f <;> rfl

theorem resetAll_flags (b : BitVec 1) (s : State) : FlagsKeptOrCleared (.rstAll b) s (resetDec (resetEnc b s))
  | .invalidInputLength => .inr ⟨flag_resetAll b s _, ⟨b, .inr rfl⟩, rfl, rfl, rfl⟩
  | .invalidIntensity => .inr ⟨flag_resetAll b s _, ⟨b, .inr rfl⟩, rfl, rfl, rfl⟩
  | .truncatedStream => .inr ⟨flag_resetAll b s _, .inr ⟨b, rfl⟩, rfl⟩

/-- An operation takes one fault, which records nothing but its flag, or it raises no flag and clears only by reset. -/
theorem exec_flags (h : exec i s = .next t) :
    (∃ f, RaisedBy i s f ∧ t = raise f s) ∨ FlagsKeptOrCleared i s t := by
  cases exec_eq_next h with
  | encIgnored _ _ _ ht => exact .inr (flagsKeptOrCleared_of_status_eq (by rw [ht]))
  | decIgnored _ _ _ ht => exact .inr (flagsKeptOrCleared_of_status_eq (by rw [ht]))
  | encEffect _ _ _ he =>
    obtain ⟨-, pk, cur, cnt, ts, rfl, -⟩ := he
    exact .inr (flagsKeptOrCleared_of_status_eq rfl)
  | decEffect _ _ _ hd =>
    obtain ⟨-, p, ts, rfl⟩ := hd
    exact .inr (flagsKeptOrCleared_of_status_eq rfl)
  | lengthFault hi _ hn ht => exact .inl ⟨.invalidInputLength, ⟨hi, hn⟩, ht⟩
  | intensityFault v hi hv _ ht => exact .inl ⟨.invalidIntensity, ⟨v, hi, hv⟩, ht⟩
  | truncatedFault hi _ hw ht => exact .inl ⟨.truncatedStream, ⟨hi, hw⟩, ht⟩
  | resetEnc b hi ht => subst hi ht; exact .inr (resetEnc_flags b s)
  | resetDec hi ht => subst hi ht; exact .inr (resetDec_flags s)
  | resetAll b hi ht => subst hi ht; exact .inr (resetAll_flags b s)
  | read r _ ht => exact .inr (flagsKeptOrCleared_of_status_eq (by rw [ht, answer_status]))

/-- A flag that rises was raised by its own operation, on its own condition, and nothing else changed (R240, R243). -/
theorem raised_of_flag_rises {f : PathFault} (h : exec i s = .next t) (hs : flag s f = false) (ht : flag t f = true) :
    RaisedBy i s f ∧ t = raise f s := by
  rcases exec_flags h with ⟨g, hg, rfl⟩ | hkept
  · obtain rfl : g = f := by simpa [flag_raise, hs] using ht
    exact ⟨hg, rfl⟩
  · rcases hkept f with heq | ⟨hf, -⟩
    · simp [heq, hs] at ht
    · simp [hf] at ht

/-- A flag that falls was cleared by a reset of its path (R250). -/
theorem cleared_of_flag_falls {f : PathFault} (h : exec i s = .next t) (hs : flag s f = true) (ht : flag t f = false) :
    ClearedBy i t f := by
  rcases exec_flags h with ⟨g, -, rfl⟩ | hkept
  · simp [flag_raise, hs] at ht
  · rcases hkept f with heq | ⟨-, hc⟩
    · simp [heq, hs] at ht
    · exact hc

/-- Settles O23: the case lemmas of the three operations raise the faults, and every rise is the case of a fault. -/
theorem faultsAreRaisedAsTabled : Obligations.FaultsAreRaisedAsTabled := by
  refine ⟨fun s => exec_pkEnd_of_partial, fun v s => exec_pkPush_of_illegal, fun s => exec_dcEnd_waiting,
    fun i s t h => ⟨fun hs ht => ?_, raised_of_flag_rises (f := .invalidIntensity) h, fun hs ht => ?_⟩⟩
  · obtain ⟨⟨hi, hn⟩, heq⟩ := raised_of_flag_rises (f := .invalidInputLength) h hs ht
    exact ⟨hi, hn, heq⟩
  · obtain ⟨⟨hi, hw⟩, heq⟩ := raised_of_flag_rises (f := .truncatedStream) h hs ht
    exact ⟨hi, hw, heq⟩

/-! ### A halted path (R244) -/

theorem exec_of_encHalted (hh : s.encHalt = true) (hon : i.onEnc = true) (hr : i.isReset = false) :
    exec i s = .next s := by
  cases i with
  | pw | cpPush | cpEnd => exact encOp_of_halted _ hh
  | pkPush v => exact exec_pkPush_of_halted v hh
  | pkEnd => exact exec_pkEnd_of_halted hh
  | rstEnc | rstAll => exact Bool.noConfusion hr
  | _ => exact Bool.noConfusion hon

theorem exec_of_decHalted (hh : s.decHalt = true) (hon : i.onDec = true) (hr : i.isReset = false) :
    exec i s = .next s := by
  cases i with
  | zrun | frun | grun | grunOperand | lit | dcPush => exact decOp_of_halted _ hh
  | dcEnd => exact exec_dcEnd_of_halted hh
  | rstDec | rstAll => exact Bool.noConfusion hr
  | _ => exact Bool.noConfusion hon

/-- The halt of the ENC path ends with the fall of one of its two flags (R33, R250). -/
theorem encReset_of_encHalt_ends (h : exec i s = .next t) (hs : s.encHalt = true) (ht : t.encHalt = false) :
    (∃ b, i = .rstEnc b ∨ i = .rstAll b) ∧ t.encIdle := by
  obtain ⟨hlen, hint⟩ := Bool.or_eq_false_iff.mp ht
  rcases Bool.or_eq_true_iff.mp hs with hs | hs
  · exact cleared_of_flag_falls (f := .invalidInputLength) h hs hlen
  · exact cleared_of_flag_falls (f := .invalidIntensity) h hs hint

/-- Settles O24: every fall of a flag is the case of a reset, and a halted path ignores its other operations. -/
theorem flagsClearedOnlyByReset : Obligations.FlagsClearedOnlyByReset := by
  intro i s t h
  refine ⟨encReset_of_encHalt_ends h, fun hs ht => ?_, fun hs ht => ?_,
    cleared_of_flag_falls (f := .truncatedStream) h, fun hh hon hr => ?_, fun hh hon hr => ?_⟩
  · exact (cleared_of_flag_falls (f := .invalidInputLength) h hs ht).1
  · exact (cleared_of_flag_falls (f := .invalidIntensity) h hs ht).1
  · exact (Host.Outcome.next.inj ((exec_of_encHalted hh hon hr).symm.trans h)).symm
  · exact (Host.Outcome.next.inj ((exec_of_decHalted hh hon hr).symm.trans h)).symm

end Sys2Proof.Proofs.Exceptions
end

section
/-! SUPPORT. What one operation changes and what it leaves alone (spec/10_state.md R20, R32, spec/20_memory.md R52,
spec/43_system.md R197, R198): the part of the state that belongs to each path, where an operation can stop, what a
successful END leaves, and the statements settled from these. -/

namespace Sys2Proof.Proofs.Frames

open Sys2Proof.Machine Sys2Proof.Proofs.Packer Sys2Proof.Proofs.Compressor
open Sys2Proof.Proofs.System Sys2Proof.Proofs.Exceptions

variable {s t : State} {i : Instr}

/-! ### The parts of the paths (R20)

A fault or a reset of one path touches `STATUS`, but no flag of the other path. -/

theorem encView_raise_truncated (s : State) : (s.setStatus (s.status ||| 4#3)).encView = s.encView := by
  simp [State.encView, State.errLen, State.errInt]

theorem encView_resetDec (s : State) : (resetDec s).encView = s.encView := by
  simp [State.encView, State.errLen, State.errInt, resetDec, clearDecFlags]

theorem decView_raise_length (s : State) : (s.setStatus (s.status ||| 1#3)).decView = s.decView := by
  simp [State.decView, State.errTrunc]

theorem decView_raise_intensity (s : State) : (s.setStatus (s.status ||| 2#3)).decView = s.decView := by
  simp [State.decView, State.errTrunc]

theorem decView_resetEnc (b : BitVec 1) (s : State) : (resetEnc b s).decView = s.decView := by
  simp [State.decView, State.errTrunc, resetEnc, clearEncFlags]

/-- An operation off the ENC path leaves that path's part of the state. -/
theorem exec_keeps_encView (h : exec i s = .next t) (hoff : i.onEnc = false) : t.encView = s.encView := by
  cases exec_eq_next h with
  | encIgnored _ _ _ ht => rw [ht]
  | decIgnored _ _ _ ht => rw [ht]
  | encEffect hon => simp [hoff] at hon
  | decEffect _ _ _ hd => obtain ⟨-, p, ts, rfl⟩ := hd; rfl
  | lengthFault hi => subst hi; contradiction
  | intensityFault v hi => subst hi; contradiction
  | truncatedFault _ _ _ ht => rw [ht, encView_raise_truncated]
  | resetEnc b hi => subst hi; contradiction
  | resetDec _ ht => rw [ht, encView_resetDec]
  | resetAll b hi => subst hi; contradiction
  | read r _ ht => subst ht; rfl

/-- An operation off the DEC path leaves that path's part of the state. -/
theorem exec_keeps_decView (h : exec i s = .next t) (hoff : i.onDec = false) : t.decView = s.decView := by
  cases exec_eq_next h with
  | encIgnored _ _ _ ht => rw [ht]
  | decIgnored _ _ _ ht => rw [ht]
  | encEffect _ _ _ he => obtain ⟨-, pk, cur, cnt, ts, rfl, -⟩ := he; rfl
  | decEffect hon => simp [hoff] at hon
  | lengthFault _ _ _ ht => rw [ht, decView_raise_length]
  | intensityFault v _ _ _ ht => rw [ht, decView_raise_intensity]
  | truncatedFault hi => subst hi; contradiction
  | resetEnc b _ ht => rw [ht, decView_resetEnc]
  | resetDec hi => subst hi; contradiction
  | resetAll b hi => subst hi; contradiction
  | read r _ ht => subst ht; rfl

/-- No operation touches the events still to come, and only the reads answer the host. -/
theorem exec_keeps_inbox_and_reads (h : exec i s = .next t) :
    t.inbox = s.inbox ∧ (t.reads = s.reads ∨ ((i = .statusRd ∨ i = .cfgRd) ∧ ∃ r, t.reads = s.reads ++ [r])) := by
  cases exec_eq_next h with
  | encIgnored _ _ _ ht => exact ⟨by rw [ht], .inl (by rw [ht])⟩
  | decIgnored _ _ _ ht => exact ⟨by rw [ht], .inl (by rw [ht])⟩
  | encEffect _ _ _ he => obtain ⟨-, pk, cur, cnt, ts, rfl, -⟩ := he; exact ⟨rfl, .inl rfl⟩
  | decEffect _ _ _ hd => obtain ⟨-, p, ts, rfl⟩ := hd; exact ⟨rfl, .inl rfl⟩
  | lengthFault _ _ _ ht => subst ht; exact ⟨rfl, .inl rfl⟩
  | intensityFault v _ _ _ ht => subst ht; exact ⟨rfl, .inl rfl⟩
  | truncatedFault _ _ _ ht => subst ht; exact ⟨rfl, .inl rfl⟩
  | resetEnc b _ ht => subst ht; exact ⟨rfl, .inl rfl⟩
  | resetDec _ ht => subst ht; exact ⟨rfl, .inl rfl⟩
  | resetAll b _ ht => subst ht; exact ⟨rfl, .inl rfl⟩
  | read r hi ht => subst ht; exact ⟨rfl, .inr ⟨hi, r, rfl⟩⟩

theorem exec_keeps_inbox (h : exec i s = .next t) : t.inbox = s.inbox := (exec_keeps_inbox_and_reads h).1

/-- Settles O27: one frame for each path, and one for the two lists of the model's own. -/
theorem pathsAreFramed : Obligations.PathsAreFramed := by
  intro i s t h
  refine ⟨exec_keeps_encView h, exec_keeps_decView h, fun hs hc => ?_, exec_keeps_inbox h⟩
  rcases (exec_keeps_inbox_and_reads h).2 with hr | ⟨hi | hi, -⟩
  · exact hr
  · exact absurd hi hs
  · exact absurd hi hc

/-! ### Emission only appends (R29, R52) -/

/-- No operation shortens a stream: an effect appends tokens, and a fault or a reset leaves both streams. -/
theorem exec_streams_grow (h : exec i s = .next t) : s.codeOut <+: t.codeOut ∧ s.wordOut <+: t.wordOut := by
  cases exec_eq_next h with
  | encIgnored _ _ _ ht => rw [ht]; exact ⟨List.prefix_rfl, List.prefix_rfl⟩
  | decIgnored _ _ _ ht => rw [ht]; exact ⟨List.prefix_rfl, List.prefix_rfl⟩
  | encEffect _ _ _ he => obtain ⟨-, pk, cur, cnt, ts, rfl, -⟩ := he; exact ⟨List.prefix_append .., List.prefix_rfl⟩
  | decEffect _ _ _ hd => obtain ⟨-, p, ts, rfl⟩ := hd; exact ⟨List.prefix_rfl, List.prefix_append ..⟩
  | lengthFault _ _ _ ht => subst ht; exact ⟨List.prefix_rfl, List.prefix_rfl⟩
  | intensityFault v _ _ _ ht => subst ht; exact ⟨List.prefix_rfl, List.prefix_rfl⟩
  | truncatedFault _ _ _ ht => subst ht; exact ⟨List.prefix_rfl, List.prefix_rfl⟩
  | resetEnc b _ ht => subst ht; exact ⟨List.prefix_rfl, List.prefix_rfl⟩
  | resetDec _ ht => subst ht; exact ⟨List.prefix_rfl, List.prefix_rfl⟩
  | resetAll b _ ht => subst ht; exact ⟨List.prefix_rfl, List.prefix_rfl⟩
  | read r _ ht => subst ht; exact ⟨List.prefix_rfl, List.prefix_rfl⟩

/-- Settles O26: effects append, faults and resets emit nothing, and a read appends its answer. -/
theorem streamsAreAppendOnly : Obligations.StreamsAreAppendOnly := by
  intro i s t h
  obtain ⟨hcode, hword⟩ := exec_streams_grow h
  refine ⟨hcode, hword, ?_⟩
  rcases (exec_keeps_inbox_and_reads h).2 with hr | ⟨-, r, hr⟩
  · rw [hr]
  · exact ⟨[r], hr.symm⟩

/-! ### `CFG` (R32, R276) -/

/-- Every operation but a reset of the ENC path leaves `CFG`. -/
theorem exec_keeps_cfg (hne : ∀ b, i ≠ .rstEnc b ∧ i ≠ .rstAll b) (h : exec i s = .next t) : t.cfg = s.cfg := by
  cases exec_eq_next h with
  | encIgnored _ _ _ ht => rw [ht]
  | decIgnored _ _ _ ht => rw [ht]
  | encEffect _ _ _ he => obtain ⟨-, pk, cur, cnt, ts, rfl, -⟩ := he; rfl
  | decEffect _ _ _ hd => obtain ⟨-, p, ts, rfl⟩ := hd; rfl
  | lengthFault _ _ _ ht => subst ht; rfl
  | intensityFault v _ _ _ ht => subst ht; rfl
  | truncatedFault _ _ _ ht => subst ht; rfl
  | resetEnc b hi => exact absurd hi (hne b).1
  | resetDec _ ht => subst ht; rfl
  | resetAll b hi => exact absurd hi (hne b).2
  | read r _ ht => subst ht; rfl

/-- Settles O25: the two resets latch their operand, and no other operation writes `CFG`. -/
theorem bypassLatchedOnlyByReset : Obligations.BypassLatchedOnlyByReset := by
  intro i s t h
  refine ⟨?_, fun hne => exec_keeps_cfg hne h⟩
  rintro b (rfl | rfl)
  · cases h; rfl
  · cases h; rfl

/-! ### Where an operation can stop (R26, log entry 5) -/

theorem encOp_stops {k : State → Host.Outcome State Fault Refusal} (hk : StopsOnlyWithoutValue s (k s)) :
    StopsOnlyWithoutValue s (encOp k s) := by
  cases hh : s.encHalt
  · rwa [encOp_of_running k hh]
  · rw [encOp_of_halted k hh]
    exact next_stops s s

theorem compressorPush_stops (w : Word) (s : State) : StopsOnlyWithoutValue s (compressorPush w s) :=
  encOp_stops takeWord_stops

theorem compressorEnd_stops (s : State) : StopsOnlyWithoutValue s (compressorEnd s) := encOp_stops endWords_stops

theorem execPkPush_stops (v : Nat) (s : State) : StopsOnlyWithoutValue s (execPkPush v s) := by
  refine encOp_stops ?_
  cases legalIntensity v
  · exact next_stops s _
  · cases s.pk with
    | empty => exact next_stops s _
    | one b0 => exact next_stops s _
    | two b0 b1 => exact compressorPush_stops _ (s.setPk .empty)

theorem execPkEnd_stops (s : State) : StopsOnlyWithoutValue s (execPkEnd s) := by
  refine encOp_stops ?_
  cases s.pk with
  | empty => exact compressorEnd_stops s
  | one b0 => exact next_stops s _
  | two b0 b1 => exact next_stops s _

theorem exec_stops (i : Instr) (s : State) : StopsOnlyWithoutValue s (exec i s) := by
  cases i with
  | pw p0 p1 p2 => exact compressorPush_stops _ s
  | cpPush w => exact compressorPush_stops w s
  | cpEnd => exact compressorEnd_stops s
  | pkPush v => exact execPkPush_stops v s
  | pkEnd => exact execPkEnd_stops s
  | _ => exact next_stops s _

/-- Under R26 every operation completes. -/
theorem exec_completes (i : Instr) (hr : s.cur = none → s.cnt = 0#8) : ∃ t, exec i s = .next t := by
  obtain ⟨hrefuse, hfault⟩ := exec_stops i s
  cases h : exec i s with
  | next t => exact ⟨t, rfl⟩
  | fault f =>
    obtain ⟨-, hcur, hcnt⟩ := hfault f h
    exact absurd (hr hcur) hcnt
  | refused r => exact absurd h (hrefuse r)

/-- Settles O29: only closing a run can stop, and only without a value. -/
theorem execStopsOnlyWithoutRunValue : Obligations.ExecStopsOnlyWithoutRunValue := exec_stops

/-! ### What a successful END leaves (R197, R278) -/

/-- `EOS` at the end of a stream. -/
theorem getLast?_append_eos (ts : List OutToken) : (ts ++ [OutToken.eos]).getLast? = some .eos := List.getLast?_concat

/-- What `CP.END` leaves, from the host or over the link. -/
theorem endWords_leaves_reset (hh : s.encHalt = false) (h : endWords s = .next t) :
    t.cur = none ∧ t.cnt = 0#8 ∧ t.pk = s.pk ∧ t.codeOutClosed ∧ t.cfg = s.cfg ∧ t.status = s.status := by
  obtain ⟨-, rfl⟩ := endWords_eq_next h
  exact ⟨rfl, rfl, rfl, ⟨getLast?_append_eos _, hh⟩, rfl, rfl⟩

/-- Settles O28: an END that leaves no flag set was neither ignored nor faulting, and its effect is that of R134 or R167. -/
theorem endRestoresResetState : Obligations.EndRestoresResetState := by
  refine fun s t => ⟨fun hh h ht => ?_, fun hh h => ?_, fun hh h ht => ?_⟩
  · rcases execPkEnd_eq_next h with ⟨hs, -⟩ | ⟨-, -, rfl⟩ | ⟨-, hp, he⟩
    · simp [hh] at hs
    · simp [State.encHalt, State.errLen] at ht
    · obtain ⟨hcur, hcnt, hpk, hclosed, hcfg, hstatus⟩ := endWords_leaves_reset hh he
      exact ⟨⟨hpk.trans hp, hcur, hcnt⟩, hclosed, hcfg, hstatus⟩
  · exact endWords_leaves_reset hh ((encOp_of_running _ hh).symm.trans h)
  · rcases execDcEnd_eq_next h with ⟨hs, -⟩ | ⟨-, -, rfl⟩ | ⟨-, hw, rfl⟩
    · simp [hh] at hs
    · simp [State.decHalt, State.errTrunc] at ht
    · exact ⟨Option.isNone_iff_eq_none.mp (Option.isSome_eq_false_iff.mp hw), ⟨getLast?_append_eos _, hh⟩, rfl, rfl⟩

/-! ### Halted paths, reads and resets (R193, R194, R198) -/

theorem encHalt_resetEnc (b : BitVec 1) (s : State) : (resetEnc b s).encHalt = false := by
  simp [resetEnc, clearEncFlags, State.encHalt, State.errLen, State.errInt]

theorem decHalt_resetDec (s : State) : (resetDec s).decHalt = false := by
  simp [resetDec, clearDecFlags, State.decHalt, State.errTrunc]

/-- Settles O22: a halted path ignores its operations (R244), and reads and resets have one effect in every state. -/
theorem haltedPathIgnoresOperations : Obligations.HaltedPathIgnoresOperations := by
  refine ⟨fun i s => exec_of_encHalted, fun i s => exec_of_decHalted, fun s => rfl, fun s => rfl, fun b s => ?_⟩
  exact ⟨_, _, _, rfl, encHalt_resetEnc b s, rfl, decHalt_resetDec s, rfl,
    (encHalt_resetDec _).trans (encHalt_resetEnc b s), decHalt_resetDec _⟩

/-- Settles O5: each read answers its register, whose bits are the flags and `BYPASS`. -/
theorem readsAnswerHost : Obligations.ReadsAnswerHost := by
  refine fun s => ⟨⟨s.status, rfl, rfl, rfl, rfl⟩, ⟨s.cfg, rfl, rfl⟩, ?_⟩
  rw [State.err, Bool.or_comm, Bool.or_comm s.errLen, Bool.or_assoc]

/-- Settles O4: the fields of the reset state, which `RST.ALL 0` writes again. -/
theorem resetStateFields : Obligations.ResetStateFields :=
  ⟨rfl, rfl, rfl, rfl, rfl, rfl, rfl, rfl, rfl, rfl, rfl, rfl⟩

/-! ### A packed word in front of the Compressor (R54, R111) -/

/-- Under R26 a word is emitted, extends the run or closes it; nothing but the run and `CODE_OUT` changes, and the triple
under assembly plays no part in it. -/
theorem exec_cpPush_effect (w : Word) (hh : s.encHalt = false) (hr : s.cur = none → s.cnt = 0#8) :
    ∃ (codes : List Word) (cur : Option Word) (cnt : Byte), ∀ p,
      exec (.cpPush w) (s.setPk p) = .next (((s.setPk p).setRun cur cnt).emitCode (codes.map .w)) := by
  cases hb : s.bypass
  · cases he : extendsRun w s.cur s.cnt
    · refine ⟨finPending s.cur s.cnt, some w, 1#8, fun p => ?_⟩
      exact (exec_cpPush_of_running w (s := s.setPk p) hh).trans (takeWord_of_runValue (s := s.setPk p) hr hb he)
    · refine ⟨[], s.cur, s.cnt + 1#8, fun p => ?_⟩
      rw [exec_cpPush_extending (s := s.setPk p) hh hb he, List.map_nil, emitCode_nil]
      rfl
  · exact ⟨[w], s.cur, s.cnt, fun p => exec_cpPush_of_bypass (s := s.setPk p) w hh hb⟩

/-- Settles O8: the third intensity is `CP.PUSH` of the packed word with the triple emptied. -/
theorem pkPushTripleCompletes : Obligations.PkPushTripleCompletes := by
  intro v s b0 b1 hh hv hp hr
  obtain ⟨codes, cur, cnt, heff⟩ := exec_cpPush_effect (packw b0 b1 (laneOf v)) hh hr.mp
  exact ⟨codes, cur, cnt, (exec_pkPush_third hh hv hp).trans (heff .empty), heff s.pk⟩

/-- Settles O10: the row is `CP.PUSH` of the packed word, in the cases of R131 to R133. -/
theorem packedWordActsOnCompressor : Obligations.PackedWordActsOnCompressor := by
  intro p0 p1 p2 w s hw
  have hrow : exec (.pw p0 p1 p2) s = exec (.cpPush w) s := by
    rw [hw, ← packw_eq_shifts]
    rfl
  rw [hrow]
  refine ⟨rfl, exec_cpPush_of_halted w, exec_cpPush_of_bypass w, exec_cpPush_extending, fun hr hh hb he => ?_⟩
  exact (exec_cpPush_of_running w hh).trans (takeWord_of_runValue hr.mp hb he)

end Sys2Proof.Proofs.Frames
end

section
/-! SUPPORT. Encodings (spec/30_encoding.md): decode and encode are inverse where the hardware can carry the bits, a code is
what its low byte says, a code row acts as `DC.PUSH` of its code, and the statements settled from these. -/

namespace Sys2Proof.Proofs.Encodings

open Sys2Proof.Machine Sys2Proof.Proofs.Properties

variable {W : IntW} {s : State} {c w : Word} {i : Instr}

/-! ### The PackedWord format (R80, R81) -/

theorem decodePacked_of_pad (h : pad w = true) : decodePacked w = .error (.padBitSet w) := by
  simp [decodePacked, h]

theorem decodePacked_of_clear (h : pad w = false) :
    decodePacked w = .ok (.pw (unpack w).1 (unpack w).2.1 (unpack w).2.2) := by
  simp [decodePacked, h]

theorem decodePacked_packw (p0 p1 p2 : Lane) : decodePacked (packw p0 p1 p2) = .ok (.pw p0 p1 p2) := by
  rw [decodePacked_of_clear (packw_getLsbD_five p0 p1 p2), unpack_packw]

/-! ### The port `PIX_IN` (R57) -/

theorem decodeEvent_pixData_of_lt {v : Nat} (h : v < 2 ^ W.bits) : decodeEvent W (.pixData v) = .ok (.pkPush v) :=
  if_pos h

theorem decodeEvent_pixData_of_le {v : Nat} (h : 2 ^ W.bits ≤ v) :
    decodeEvent W (.pixData v) = .error (.pixelTooWide v) :=
  if_neg (Nat.not_lt.mpr h)

/-! ### Decode and encode (R82 to R96) -/

theorem decode_encode (hw : i.wf W = true) : decode W (encode i) = .ok i := by
  cases i with
  | zrun n => exact congrArg Except.ok ((decodeCode_zero (lo_escape n _)).trans (by rw [hi_escape]))
  | frun n => exact congrArg Except.ok ((decodeCode_full (lo_escape n _)).trans (by rw [hi_escape]))
  | grun n => exact congrArg Except.ok ((decodeCode_gen (lo_escape n _)).trans (by rw [hi_escape]))
  | lit v => exact congrArg Except.ok (decodeCode_literal (by simpa [Instr.wf] using hw))
  | pw p0 p1 p2 => exact decodePacked_packw p0 p1 p2
  | pkPush v => exact decodeEvent_pixData_of_lt (by simpa [Instr.wf] using hw)
  | _ => rfl

/-- Settles O36: escape codes give back their counts, packed words their lanes, and all else is one event or one code. -/
theorem decodeOfEncode : Obligations.DecodeOfEncode := fun _ _ hw => decode_encode hw

/-- A code is the encoding of the row it is classified as, and that row is well-formed. -/
theorem encode_decodeCode (W : IntW) (wait : Bool) (c : Word) :
    encode (decodeCode wait c) = .code wait c ∧ (decodeCode wait c).wf W = true := by
  cases wait
  · rcases code_class c with h | h | h | h
    · rw [decodeCode_zero h]
      exact ⟨congrArg _ (escape_hi_of_lo h), rfl⟩
    · rw [decodeCode_full h]
      exact ⟨congrArg _ (escape_hi_of_lo h), rfl⟩
    · rw [decodeCode_gen h]
      exact ⟨congrArg _ (escape_hi_of_lo h), rfl⟩
    · rw [decodeCode_literal h]
      exact ⟨rfl, by simp [Instr.wf, h]⟩
  · exact ⟨rfl, rfl⟩

/-- Bits that fit their port or format are the encoding of a well-formed instruction. -/
theorem exists_encode_of_fits {e : Encoding} (hf : e.fits W = true) : ∃ i, encode i = e ∧ i.wf W = true := by
  cases e with
  | event e =>
    cases e with
    | pixData v => exact ⟨.pkPush v, rfl, hf⟩
    | pixEnd => exact ⟨.pkEnd, rfl, rfl⟩
    | wordData w => exact ⟨.cpPush w, rfl, rfl⟩
    | wordEnd => exact ⟨.cpEnd, rfl, rfl⟩
    | codeData c => exact ⟨.dcPush c, rfl, rfl⟩
    | codeEnd => exact ⟨.dcEnd, rfl, rfl⟩
    | rstEnc b => exact ⟨.rstEnc b, rfl, rfl⟩
    | rstDec => exact ⟨.rstDec, rfl, rfl⟩
    | rstAll b => exact ⟨.rstAll b, rfl, rfl⟩
    | statusRd => exact ⟨.statusRd, rfl, rfl⟩
    | cfgRd => exact ⟨.cfgRd, rfl, rfl⟩
  | code wait c => exact ⟨decodeCode wait c, encode_decodeCode W wait c⟩
  | packed w =>
    have hp : pad w = false := by simpa [Encoding.fits] using hf
    exact ⟨.pw (unpack w).1 (unpack w).2.1 (unpack w).2.2, congrArg _ ((packw_unpack_iff w).mpr hp), rfl⟩

/-- Only bits that fit are decoded. -/
theorem fits_of_decode {e : Encoding} (h : decode W e = .ok i) : e.fits W = true := by
  cases e with
  | event e =>
    cases e with
    | pixData v =>
      by_cases hv : v < 2 ^ W.bits
      · exact decide_eq_true hv
      · simp [decode, decodeEvent_pixData_of_le (Nat.not_lt.mp hv)] at h
    | _ => rfl
  | code wait c => rfl
  | packed w =>
    cases hp : pad w
    · simp [Encoding.fits, hp]
    · simp [decode, decodePacked_of_pad hp] at h

/-- Settles O37: bits that are decoded fit, and bits that fit are an encoding, which decodes to its one instruction. -/
theorem encodeOfDecode : Obligations.EncodeOfDecode := by
  refine fun W e => ⟨fun i h => ?_, fun ⟨i, h⟩ => fits_of_decode h, fun hf => ?_⟩
  · obtain ⟨j, rfl, hw⟩ := exists_encode_of_fits (fits_of_decode h)
    rw [decode_encode hw] at h
    cases h
    exact ⟨rfl, hw⟩
  · obtain ⟨j, rfl, hw⟩ := exists_encode_of_fits hf
    exact ⟨j, decode_encode hw⟩

/-- Settles O38: the class is that of the low byte, and the count is the high byte. -/
theorem codesClassifiedByLowByte : Obligations.CodesClassifiedByLowByte := by
  refine fun n l => ⟨?_, ?_, ?_, fun hz hf hg => ?_, rfl⟩
  · rintro rfl
    exact (decodeCode_zero (lo_append n _)).trans (by rw [hi_append])
  · rintro rfl
    exact (decodeCode_full (lo_append n _)).trans (by rw [hi_append])
  · rintro rfl
    exact (decodeCode_gen (lo_append n _)).trans (by rw [hi_append])
  · exact decodeCode_literal ((isSentinel_false_iff _).mpr (by rw [lo_append]; exact ⟨hz, hf, hg⟩))

/-- Settles O39: the nine words, evaluated. -/
theorem knownWordsDecode : Obligations.KnownWordsDecode := by
  unfold Obligations.KnownWordsDecode
  decide

/-! ### A code row is its code in front of DC (R161, log entry 8) -/

/-- The row a code is classified as acts as `DC.PUSH` of the code in every state: on a pending run the code is the operand
of either, and in escape position the row's effect is that of the low byte. -/
theorem exec_decodeCode (wait : Bool) (c : Word) (s : State) : exec (decodeCode wait c) s = exec (.dcPush c) s := by
  cases wait
  · rcases code_class c with h | h | h | h
    · rw [decodeCode_zero h]
      simp only [exec, execZrun, execDcPush, escape_hi_of_lo h, ← funext (escapePosition_zero h)]
    · rw [decodeCode_full h]
      simp only [exec, execFrun, execDcPush, escape_hi_of_lo h, ← funext (escapePosition_full h)]
    · rw [decodeCode_gen h]
      simp only [exec, execGrun, execDcPush, escape_hi_of_lo h, ← funext (escapePosition_gen h)]
    · rw [decodeCode_literal h]
      simp only [exec, execLit, execDcPush, ← funext (escapePosition_literal h)]
  · rfl

/-- A code on a path that is not halted appends tokens or changes the pending run, and completes. -/
theorem exec_dcPush_completes (c : Word) (s : State) : ∃ t, exec (.dcPush c) s = .next t ∧ t.status = s.status := by
  cases hh : s.decHalt
  · obtain ⟨-, p, ts, ht⟩ := orOperand_effect hh (escapePosition_effect (s := s) c)
    exact ⟨_, decOp_of_running _ hh, by rw [ht]; rfl⟩
  · exact ⟨s, decOp_of_halted _ hh, rfl⟩

/-- Settles O19: the decoder tests the pending run first, as `DC.PUSH` does. -/
theorem dcPushRunsDecodedCode : Obligations.DcPushRunsDecodedCode := fun c s =>
  ⟨decOp_of_halted _, (exec_decodeCode s.dcWait c s).symm, exec_dcPush_completes c s⟩

/-- Settles O20: a well-formed row is what its code decodes to. -/
theorem codeRowsActAsDcPush : Obligations.CodeRowsActAsDcPush := by
  intro W i wait c s hw he
  have hi : decode W (.code wait c) = .ok i := he ▸ decode_encode hw
  obtain rfl : decodeCode wait c = i := Except.ok.inj hi
  exact exec_decodeCode wait c s

/-! ### A code placed as the next event (log entry 9) -/

theorem tableCode_toNat (c : Word) : tableCode 16 c.toNat = some c := by
  simp [tableCode, Nat.mod_eq_of_lt c.isLt]

/-- The next step takes the placed code off the list again and runs it. -/
theorem step_withFetchWord (s : State) (c : Word) : step (s.withFetchWord 16 c.toNat) = exec (.dcPush c) s := by
  rw [State.withFetchWord, tableCode_toNat]
  exact stepAt_of_event (s := putEventFirst (.codeData c) s) rfl rfl

/-- Settles O31: the code is placed in front, decoded as the table word says, and run as its row. -/
theorem fetchedCodeRuns : Obligations.FetchedCodeRuns := by
  refine fun s c => ⟨step_withFetchWord s c, by rw [decodeTableWord, tableCode_toNat]; rfl, fun _ => ?_⟩
  rw [step_withFetchWord, exec_decodeCode]

end Sys2Proof.Proofs.Encodings
end

section
/-! SUPPORT. Two states that agree where a path looks stay in agreement under the path's operations: said once for any
relation that the named updates respect. From it follow the independence of the paths and of their history
(spec/20_memory.md R59, spec/44_properties.md R222). -/

namespace Sys2Proof.Proofs.Agreement

open Sys2Proof.Machine Sys2Proof.Proofs.Frames

variable {R : State → State → Prop} {s t u v : State} {i : Instr} {is : List Instr}

/-! ### Related outcomes -/

/-- Two outcomes that stop alike, or answer related next states. -/
inductive Lifts (R : State → State → Prop) :
    Host.Outcome State Fault Refusal → Host.Outcome State Fault Refusal → Prop where
  | next {s u : State} (h : R s u) : Lifts R (.next s) (.next u)
  | fault (f : Fault) : Lifts R (.fault f) (.fault f)
  | refused (r : Refusal) : Lifts R (.refused r) (.refused r)

theorem Lifts.of_next {o : Host.Outcome State Fault Refusal} (h : Lifts R (.next t) o) : ∃ v, o = .next v ∧ R t v := by
  cases h with
  | next h => exact ⟨_, rfl, h⟩

theorem Lifts.andThen {o o' : Host.Outcome State Fault Refusal} {k : State → Host.Outcome State Fault Refusal}
    (h : Lifts R o o') (hk : ∀ {s u}, R s u → Lifts R (k s) (k u)) :
    Lifts R (Machine.andThen o k) (Machine.andThen o' k) := by
  cases h with
  | next h => exact hk h
  | fault f => exact .fault f
  | refused r => exact .refused r

/-! ### Operations of the ENC path -/

/-- Related states agree on what the ENC path reads, and what it writes keeps them related. -/
structure EncRespects (R : State → State → Prop) : Prop where
  pk : ∀ {s u}, R s u → u.pk = s.pk
  cur : ∀ {s u}, R s u → u.cur = s.cur
  cnt : ∀ {s u}, R s u → u.cnt = s.cnt
  encHalt : ∀ {s u}, R s u → u.encHalt = s.encHalt
  bypass : ∀ {s u}, R s u → u.bypass = s.bypass
  setPk : ∀ {s u} (p : PkTriple), R s u → R (s.setPk p) (u.setPk p)
  setRun : ∀ {s u} (c : Option Word) (n : Byte), R s u → R (s.setRun c n) (u.setRun c n)
  emitCode : ∀ {s u} (ts : List OutToken), R s u → R (s.emitCode ts) (u.emitCode ts)
  raiseLength : ∀ {s u}, R s u → R (raise .invalidInputLength s) (raise .invalidInputLength u)
  raiseIntensity : ∀ {s u}, R s u → R (raise .invalidIntensity s) (raise .invalidIntensity u)

section Enc
variable (hR : EncRespects R)
include hR

theorem encOp_lifts {k : State → Host.Outcome State Fault Refusal} (h : R s u) (hk : Lifts R (k s) (k u)) :
    Lifts R (encOp k s) (encOp k u) := by
  unfold encOp
  rw [hR.encHalt h]
  split
  · exact .next h
  · exact hk

theorem closeRun_lifts (h : R s u) : Lifts R (closeRun s) (closeRun u) := by
  unfold closeRun
  rw [hR.cur h, hR.cnt h]
  split
  · exact .next h
  · split
    · exact .next (hR.emitCode _ h)
    · exact .fault _

theorem takeWord_lifts (w : Word) (h : R s u) : Lifts R (takeWord w s) (takeWord w u) := by
  unfold takeWord
  rw [hR.bypass h, hR.cur h, hR.cnt h]
  split
  · exact .next (hR.emitCode _ h)
  · split
    · exact .next (hR.setRun _ _ h)
    · exact (closeRun_lifts hR h).andThen fun h => .next (hR.setRun _ _ h)

theorem endWords_lifts (h : R s u) : Lifts R (endWords s) (endWords u) :=
  (closeRun_lifts hR h).andThen fun h => .next (hR.emitCode _ (hR.setRun _ _ h))

theorem compressorPush_lifts (w : Word) (h : R s u) : Lifts R (compressorPush w s) (compressorPush w u) :=
  encOp_lifts hR h (takeWord_lifts hR w h)

theorem compressorEnd_lifts (h : R s u) : Lifts R (compressorEnd s) (compressorEnd u) :=
  encOp_lifts hR h (endWords_lifts hR h)

theorem execPkPush_lifts (v : Nat) (h : R s u) : Lifts R (execPkPush v s) (execPkPush v u) := by
  refine encOp_lifts hR h ?_
  simp only [hR.pk h]
  split
  · cases s.pk with
    | empty => exact .next (hR.setPk _ h)
    | one b0 => exact .next (hR.setPk _ h)
    | two b0 b1 => exact compressorPush_lifts hR _ (hR.setPk _ h)
  · exact .next (hR.raiseIntensity h)

theorem execPkEnd_lifts (h : R s u) : Lifts R (execPkEnd s) (execPkEnd u) := by
  refine encOp_lifts hR h ?_
  simp only [hR.pk h]
  cases s.pk with
  | empty => exact compressorEnd_lifts hR h
  | one b0 => exact .next (hR.raiseLength h)
  | two b0 b1 => exact .next (hR.raiseLength h)

/-- The operations of the ENC path but its resets keep related states related. -/
theorem exec_lifts_enc (hon : i.onEnc = true) (hr : i.isReset = false) (h : R s u) : Lifts R (exec i s) (exec i u) := by
  cases i with
  | pw p0 p1 p2 => exact compressorPush_lifts hR _ h
  | cpPush w => exact compressorPush_lifts hR w h
  | cpEnd => exact compressorEnd_lifts hR h
  | pkPush v => exact execPkPush_lifts hR v h
  | pkEnd => exact execPkEnd_lifts hR h
  | rstEnc | rstAll => exact Bool.noConfusion hr
  | _ => exact Bool.noConfusion hon

end Enc

/-! ### Operations of the DEC path -/

/-- Related states agree on what the DEC path reads, and what it writes keeps them related. -/
structure DecRespects (R : State → State → Prop) : Prop where
  dcPend : ∀ {s u}, R s u → u.dcPend = s.dcPend
  decHalt : ∀ {s u}, R s u → u.decHalt = s.decHalt
  setDcPend : ∀ {s u} (p : Option Byte), R s u → R (s.setDcPend p) (u.setDcPend p)
  emitWord : ∀ {s u} (ts : List OutToken), R s u → R (s.emitWord ts) (u.emitWord ts)
  raiseTruncated : ∀ {s u}, R s u → R (raise .truncatedStream s) (raise .truncatedStream u)

section Dec
variable (hR : DecRespects R)
include hR

theorem decOp_lifts {k : State → State} (h : R s u) (hk : R (k s) (k u)) : Lifts R (decOp k s) (decOp k u) := by
  unfold decOp
  rw [hR.decHalt h]
  split
  · exact .next h
  · exact .next hk

theorem emitCopies_related (v : Word) (n : Byte) (h : R s u) : R (emitCopies v n s) (emitCopies v n u) :=
  hR.emitWord _ h

theorem orOperand_related (c : Word) {k : State → State} (h : R s u) (hk : R (k s) (k u)) :
    R (orOperand c k s) (orOperand c k u) := by
  unfold orOperand
  rw [hR.dcPend h]
  split
  · exact hR.setDcPend _ (emitCopies_related hR c _ h)
  · exact hk

theorem escapePosition_related (c : Word) (h : R s u) : R (escapePosition c s) (escapePosition c u) := by
  unfold escapePosition
  split
  · exact emitCopies_related hR _ _ h
  · split
    · exact emitCopies_related hR _ _ h
    · split
      · exact hR.setDcPend _ h
      · exact hR.emitWord _ h

theorem codeRow_lifts (c : Word) {k : State → State} (h : R s u) (hk : R (k s) (k u)) :
    Lifts R (decOp (orOperand c k) s) (decOp (orOperand c k) u) :=
  decOp_lifts hR h (orOperand_related hR c h hk)

theorem execDcEnd_lifts (h : R s u) : Lifts R (execDcEnd s) (execDcEnd u) := by
  refine decOp_lifts hR h ?_
  have hw : u.dcWait = s.dcWait := congrArg Option.isSome (hR.dcPend h)
  simp only [hw]
  cases s.dcWait
  · exact hR.emitWord _ h
  · exact hR.raiseTruncated h

/-- The operations of the DEC path but its resets keep related states related. -/
theorem exec_lifts_dec (hon : i.onDec = true) (hr : i.isReset = false) (h : R s u) : Lifts R (exec i s) (exec i u) := by
  cases i with
  | zrun n => exact codeRow_lifts hR _ h (emitCopies_related hR _ n h)
  | frun n => exact codeRow_lifts hR _ h (emitCopies_related hR _ n h)
  | grun n => exact codeRow_lifts hR _ h (hR.setDcPend _ h)
  | grunOperand c => exact codeRow_lifts hR c h (escapePosition_related hR c h)
  | lit c => exact codeRow_lifts hR c h (hR.emitWord _ h)
  | dcPush c => exact codeRow_lifts hR c h (escapePosition_related hR c h)
  | dcEnd => exact execDcEnd_lifts hR h
  | rstDec | rstAll => exact Bool.noConfusion hr
  | _ => exact Bool.noConfusion hon

end Dec

/-! ### No operation looks at the events to come (R37) -/

/-- The same state with other events to come. -/
def SameButInbox (es : List HostEvent) (s u : State) : Prop := u = s.setInbox es

theorem sameButInbox_encRespects (es : List HostEvent) : EncRespects (SameButInbox es) where
  pk h := by cases h; rfl
  cur h := by cases h; rfl
  cnt h := by cases h; rfl
  encHalt h := by cases h; rfl
  bypass h := by cases h; rfl
  setPk p h := congrArg (State.setPk p) h
  setRun c n h := congrArg (State.setRun c n) h
  emitCode ts h := congrArg (State.emitCode ts) h
  raiseLength h := congrArg (raise .invalidInputLength) h
  raiseIntensity h := congrArg (raise .invalidIntensity) h

theorem sameButInbox_decRespects (es : List HostEvent) : DecRespects (SameButInbox es) where
  dcPend h := by cases h; rfl
  decHalt h := by cases h; rfl
  setDcPend p h := congrArg (State.setDcPend p) h
  emitWord ts h := congrArg (State.emitWord ts) h
  raiseTruncated h := congrArg (raise .truncatedStream) h

theorem exec_setInbox (i : Instr) (es : List HostEvent) (s : State) :
    Lifts (SameButInbox es) (exec i s) (exec i (s.setInbox es)) := by
  have h : SameButInbox es s (s.setInbox es) := rfl
  cases i with
  | pw | pkPush | pkEnd | cpPush | cpEnd => exact exec_lifts_enc (sameButInbox_encRespects es) rfl rfl h
  | zrun | frun | grun | grunOperand | lit | dcPush | dcEnd =>
    exact exec_lifts_dec (sameButInbox_decRespects es) rfl rfl h
  | rstEnc | rstDec | rstAll | statusRd | cfgRd => exact .next rfl

/-! ### Two states that agree on a path (R20) -/

/-- The ENC parts agree, but that one stream continues `xs` where the other continues `ys`. -/
def EncAgree (xs ys : List OutToken) (s u : State) : Prop :=
  ∃ ts, s.encView.codeOut = xs ++ ts ∧ u.encView = { s.encView with codeOut := ys ++ ts }

/-- The DEC parts agree, but that one stream continues `xs` where the other continues `ys`. -/
def DecAgree (xs ys : List OutToken) (s u : State) : Prop :=
  ∃ ts, s.decView.wordOut = xs ++ ts ∧ u.decView = { s.decView with wordOut := ys ++ ts }

theorem encView_eq_of_encAgree (h : EncAgree [] [] s u) : u.encView = s.encView := by
  obtain ⟨ts, hs, hu⟩ := h
  rw [hu, List.nil_append, ← List.nil_append ts, ← hs]

theorem decView_eq_of_decAgree (h : DecAgree [] [] s u) : u.decView = s.decView := by
  obtain ⟨ts, hs, hu⟩ := h
  rw [hu, List.nil_append, ← List.nil_append ts, ← hs]

theorem encView_raise_length (s : State) :
    (raise .invalidInputLength s).encView = { s.encView with errLen := true } := by
  simp [State.encView, State.errLen, State.errInt]

theorem encView_raise_intensity (s : State) :
    (raise .invalidIntensity s).encView = { s.encView with errInt := true } := by
  simp [State.encView, State.errLen, State.errInt]

theorem decView_raise_truncated (s : State) :
    (raise .truncatedStream s).decView = { s.decView with errTrunc := true } := by
  simp [State.decView, State.errTrunc]

theorem encView_resetEnc (b : BitVec 1) (s : State) :
    (resetEnc b s).encView = ⟨.empty, none, 0#8, false, false, b, s.codeOut⟩ := by
  simp [resetEnc, clearEncFlags, State.encView, State.errLen, State.errInt]

theorem decView_resetDec (s : State) : (resetDec s).decView = ⟨none, false, s.wordOut⟩ := by
  simp [resetDec, clearDecFlags, State.decView, State.errTrunc]

theorem encAgree_encRespects (xs ys : List OutToken) : EncRespects (EncAgree xs ys) where
  pk := fun ⟨_, _, hu⟩ => congrArg EncView.pk hu
  cur := fun ⟨_, _, hu⟩ => congrArg EncView.cur hu
  cnt := fun ⟨_, _, hu⟩ => congrArg EncView.cnt hu
  encHalt := fun ⟨_, _, hu⟩ => congrArg (fun v : EncView => v.errLen || v.errInt) hu
  bypass := fun ⟨_, _, hu⟩ => congrArg (fun v : EncView => v.cfg.getLsbD 0) hu
  setPk p := fun ⟨ts, hs, hu⟩ => ⟨ts, hs, congrArg (fun v : EncView => { v with pk := p }) hu⟩
  setRun c n := fun ⟨ts, hs, hu⟩ => ⟨ts, hs, congrArg (fun v : EncView => { v with cur := c, cnt := n }) hu⟩
  emitCode us := fun ⟨ts, hs, hu⟩ => by
    refine ⟨ts ++ us, ?_, ?_⟩
    · rw [← List.append_assoc, ← hs]
      rfl
    · rw [← List.append_assoc]
      exact congrArg (fun v : EncView => { v with codeOut := v.codeOut ++ us }) hu
  raiseLength := fun ⟨ts, hs, hu⟩ => ⟨ts, hs, by rw [encView_raise_length, encView_raise_length, hu]⟩
  raiseIntensity := fun ⟨ts, hs, hu⟩ => ⟨ts, hs, by rw [encView_raise_intensity, encView_raise_intensity, hu]⟩

theorem decAgree_decRespects (xs ys : List OutToken) : DecRespects (DecAgree xs ys) where
  dcPend := fun ⟨_, _, hu⟩ => congrArg DecView.dcPend hu
  decHalt := fun ⟨_, _, hu⟩ => congrArg DecView.errTrunc hu
  setDcPend p := fun ⟨ts, hs, hu⟩ => ⟨ts, hs, congrArg (fun v : DecView => { v with dcPend := p }) hu⟩
  emitWord us := fun ⟨ts, hs, hu⟩ => by
    refine ⟨ts ++ us, ?_, ?_⟩
    · rw [← List.append_assoc, ← hs]
      rfl
    · rw [← List.append_assoc]
      exact congrArg (fun v : DecView => { v with wordOut := v.wordOut ++ us }) hu
  raiseTruncated := fun ⟨ts, hs, hu⟩ => ⟨ts, hs, by rw [decView_raise_truncated, decView_raise_truncated, hu]⟩

/-- After a reset of the ENC path two states agree on it, whatever they were. -/
theorem encAgree_resetEnc (b : BitVec 1) (s u : State) :
    EncAgree s.codeOut u.codeOut (resetEnc b s) (resetEnc b u) :=
  ⟨[], by rw [List.append_nil]; rfl, by rw [List.append_nil, encView_resetEnc, encView_resetEnc]⟩

theorem decAgree_resetDec (s u : State) : DecAgree s.wordOut u.wordOut (resetDec s) (resetDec u) :=
  ⟨[], by rw [List.append_nil]; rfl, by rw [List.append_nil, decView_resetDec, decView_resetDec]⟩

/-- A reset of the ENC path keeps agreement, since it keeps the streams. -/
theorem encAgree_keeps_resetEnc {xs ys : List OutToken} (b : BitVec 1) (h : EncAgree xs ys s u) :
    EncAgree xs ys (resetEnc b s) (resetEnc b u) := by
  obtain ⟨ts, hs, hu⟩ := h
  refine ⟨ts, hs, ?_⟩
  rw [encView_resetEnc, encView_resetEnc, show u.codeOut = ys ++ ts from congrArg EncView.codeOut hu]

theorem decAgree_keeps_resetDec {xs ys : List OutToken} (h : DecAgree xs ys s u) :
    DecAgree xs ys (resetDec s) (resetDec u) := by
  obtain ⟨ts, hs, hu⟩ := h
  refine ⟨ts, hs, ?_⟩
  rw [decView_resetDec, decView_resetDec, show u.wordOut = ys ++ ts from congrArg DecView.wordOut hu]

/-! ### A path along a sequence of operations -/

/-- A relation between states that is about one path: the path's operations keep it, and no other operation of either state
can break it. -/
structure PathRelation (on : Instr → Bool) (R : State → State → Prop) : Prop where
  onPath : ∀ {i s u}, on i = true → R s u → Lifts R (exec i s) (exec i u)
  offLeft : ∀ {i s t u}, on i = false → exec i s = .next t → R s u → R t u
  offRight : ∀ {i s u v}, on i = false → exec i u = .next v → R s u → R s v

/-- The operations of the path alone lead to a state related to the one that all operations lead to. -/
theorem execAll_filter {on : Instr → Bool} (hP : PathRelation on R) (h : R s u) (hs : execAll is s = .next t) :
    ∃ v, execAll (is.filter on) u = .next v ∧ R t v := by
  induction is generalizing s u with
  | nil =>
    cases hs
    exact ⟨u, rfl, h⟩
  | cons i is ih =>
    obtain ⟨s', hi, hs'⟩ := execAll_cons_eq_next.mp hs
    cases hon : on i
    · rw [List.filter_cons_of_neg (by simp [hon])]
      exact ih (hP.offLeft hon hi h) hs'
    · obtain ⟨u', hu, h'⟩ := (hi ▸ hP.onPath hon h).of_next
      obtain ⟨v, hv, hR⟩ := ih h' hs'
      rw [List.filter_cons_of_pos hon]
      exact ⟨v, execAll_cons_eq_next.mpr ⟨u', hu, hv⟩, hR⟩

/-- The same operations lead from related states to related states. -/
theorem execAll_related {on : Instr → Bool} (hP : PathRelation on R) (h : R s u) (hs : execAll is s = .next t)
    (hu : execAll is u = .next v) : R t v := by
  induction is generalizing s u with
  | nil =>
    cases hs
    cases hu
    exact h
  | cons i is ih =>
    obtain ⟨s', hi, hs'⟩ := execAll_cons_eq_next.mp hs
    obtain ⟨u', hj, hu'⟩ := execAll_cons_eq_next.mp hu
    cases hon : on i
    · exact ih (hP.offRight hon hj (hP.offLeft hon hi h)) hs' hu'
    · obtain ⟨u'', hj', h'⟩ := (hi ▸ hP.onPath hon h).of_next
      obtain rfl : u'' = u' := Host.Outcome.next.inj (hj'.symm.trans hj)
      exact ih h' hs' hu'

theorem encAgree_pathRelation (xs ys : List OutToken) : PathRelation Instr.onEnc (EncAgree xs ys) where
  onPath {i s u} hon h := by
    cases hr : i.isReset
    · exact exec_lifts_enc (encAgree_encRespects xs ys) hon hr h
    · cases i with
      | rstEnc b => exact .next (encAgree_keeps_resetEnc b h)
      | rstAll b =>
        refine .next ?_
        unfold EncAgree
        rw [encView_resetDec, encView_resetDec]
        exact encAgree_keeps_resetEnc b h
      | rstDec => exact Bool.noConfusion hon
      | _ => exact Bool.noConfusion hr
  offLeft hoff hi h := by
    unfold EncAgree
    rwa [exec_keeps_encView hi hoff]
  offRight hoff hi h := by
    unfold EncAgree
    rwa [exec_keeps_encView hi hoff]

theorem decAgree_pathRelation (xs ys : List OutToken) : PathRelation Instr.onDec (DecAgree xs ys) where
  onPath {i s u} hon h := by
    cases hr : i.isReset
    · exact exec_lifts_dec (decAgree_decRespects xs ys) hon hr h
    · cases i with
      | rstDec => exact .next (decAgree_keeps_resetDec h)
      | rstAll b =>
        refine .next (decAgree_keeps_resetDec ?_)
        unfold DecAgree
        rwa [decView_resetEnc, decView_resetEnc]
      | rstEnc b => exact Bool.noConfusion hon
      | _ => exact Bool.noConfusion hr
  offLeft hoff hi h := by
    unfold DecAgree
    rwa [exec_keeps_decView hi hoff]
  offRight hoff hi h := by
    unfold DecAgree
    rwa [exec_keeps_decView hi hoff]

/-- Settles O59: a state agrees with itself on each path, and the path's operations alone keep the agreement. -/
theorem interleavingIsInvisible : Obligations.InterleavingIsInvisible := by
  refine fun is s t h => ⟨?_, ?_⟩
  · obtain ⟨u, hu, ha⟩ := execAll_filter (encAgree_pathRelation [] []) ⟨s.codeOut, rfl, rfl⟩ h
    exact ⟨u, hu, encView_eq_of_encAgree ha⟩
  · obtain ⟨u, hu, ha⟩ := execAll_filter (decAgree_pathRelation [] []) ⟨s.wordOut, rfl, rfl⟩ h
    exact ⟨u, hu, decView_eq_of_decAgree ha⟩

/-- Settles O60: the reset makes the two states agree on the path but for the streams before it, and the same operations
keep that. -/
theorem resetErasesHistory : Obligations.ResetErasesHistory := by
  refine ⟨fun b is s₁ s₂ t₁ t₂ h₁ h₂ => ?_, fun is s₁ s₂ t₁ t₂ h₁ h₂ => ?_⟩
  · obtain ⟨ts, ht₁, ht₂⟩ := execAll_related (encAgree_pathRelation _ _) (encAgree_resetEnc b s₁ s₂) h₁ h₂
    exact ⟨ts, ht₁, congrArg EncView.codeOut ht₂⟩
  · obtain ⟨ts, ht₁, ht₂⟩ := execAll_related (decAgree_pathRelation _ _) (decAgree_resetDec s₁ s₂) h₁ h₂
    exact ⟨ts, ht₁, congrArg DecView.wordOut ht₂⟩

end Sys2Proof.Proofs.Agreement
end

section
/-! SUPPORT. The step (spec/20_memory.md, spec/60_exceptions.md): the invariant of the registers and that every operation keeps
it, runs of steps as sequences of operations, and the statements settled from these. -/

namespace Sys2Proof.Proofs.Steps

open Sys2Proof.Machine Sys2Proof.Proofs.Packer Sys2Proof.Proofs.Exceptions Sys2Proof.Proofs.Frames
open Sys2Proof.Proofs.Encodings Sys2Proof.Proofs.Agreement

variable {W : IntW} {s t : State} {i : Instr}

/-! ### The invariant (R26, R31, R33) -/

/-- The part of the invariant about the flags: at most one ENC flag, and a flag only with the pending state that raised
it. -/
abbrev FlagsSound (s : State) : Prop :=
  ¬ (s.errLen = true ∧ s.errInt = true) ∧ (s.errLen = true → s.pk ≠ .empty) ∧ (s.errTrunc = true → s.dcWait = true)

theorem inv_iff (s : State) : s.Inv ↔ s.RunSound ∧ FlagsSound s := and_assoc.symm

theorem exec_keeps_runSound (h : exec i s = .next t) (hs : s.RunSound) : t.RunSound := by
  have reset_sound (b : BitVec 1) : (resetEnc b s).RunSound := ⟨iff_of_true rfl rfl, fun _ => rfl⟩
  cases exec_eq_next h with
  | encIgnored _ _ _ ht => rwa [ht]
  | decIgnored _ _ _ ht => rwa [ht]
  | encEffect _ _ _ he => obtain ⟨-, pk, cur, cnt, ts, -, hsound⟩ := he; exact hsound hs
  | decEffect _ _ _ hd => obtain ⟨-, p, ts, rfl⟩ := hd; exact hs
  | lengthFault _ _ _ ht => subst ht; exact hs
  | intensityFault v _ _ _ ht => subst ht; exact hs
  | truncatedFault _ _ _ ht => subst ht; exact hs
  | resetEnc b _ ht => subst ht; exact reset_sound b
  | resetDec _ ht => subst ht; exact hs
  | resetAll b _ ht => subst ht; exact reset_sound b
  | read r _ ht => subst ht; exact hs

/-- On a running ENC path no flag of it is set (R33). -/
theorem flags_of_running (hh : s.encHalt = false) : s.errLen = false ∧ s.errInt = false := Bool.or_eq_false_iff.mp hh

/-- The flags are sound where no flag of the ENC path is set. -/
theorem flagsSound_of_running (hh : s.encHalt = false) (hd : s.errTrunc = true → s.dcWait = true) : FlagsSound s := by
  obtain ⟨hlen, hint⟩ := flags_of_running hh
  exact ⟨by simp [hlen], by simp [hlen], hd⟩

/-- A length fault sets `ERR_LEN` alone, with a partial triple held (R114). -/
theorem flagsSound_raise_length (hh : s.encHalt = false) (hn : s.pkN ≠ 0) (hs : FlagsSound s) :
    FlagsSound (raise .invalidInputLength s) := by
  obtain ⟨-, hint⟩ := flags_of_running hh
  obtain ⟨-, -, htrunc⟩ := hs
  have hint' : (raise .invalidInputLength s).errInt = false :=
    (flag_raise .invalidInputLength .invalidIntensity s).trans hint
  have htrunc' : (raise .invalidInputLength s).errTrunc = s.errTrunc := flag_raise .invalidInputLength .truncatedStream s
  exact ⟨fun ⟨_, h⟩ => Bool.noConfusion (hint'.symm.trans h), fun _ hp => hn ((pkN_eq_zero_iff s).mpr hp),
    fun h => htrunc (htrunc' ▸ h)⟩

/-- An intensity fault sets `ERR_INT` alone (R112). -/
theorem flagsSound_raise_intensity (hh : s.encHalt = false) (hs : FlagsSound s) :
    FlagsSound (raise .invalidIntensity s) := by
  obtain ⟨hlen, -⟩ := flags_of_running hh
  obtain ⟨-, -, htrunc⟩ := hs
  have hlen' : (raise .invalidIntensity s).errLen = false :=
    (flag_raise .invalidIntensity .invalidInputLength s).trans hlen
  have htrunc' : (raise .invalidIntensity s).errTrunc = s.errTrunc := flag_raise .invalidIntensity .truncatedStream s
  exact ⟨fun ⟨h, _⟩ => Bool.noConfusion (hlen'.symm.trans h), fun h => Bool.noConfusion (hlen'.symm.trans h),
    fun h => htrunc (htrunc' ▸ h)⟩

/-- A truncation fault sets `ERR_TRUNC` alone, with an operand awaited (R167). -/
theorem flagsSound_raise_truncated (hw : s.dcWait = true) (hs : FlagsSound s) : FlagsSound (raise .truncatedStream s) := by
  obtain ⟨hone, hlen, -⟩ := hs
  have hlen' : (raise .truncatedStream s).errLen = s.errLen := flag_raise .truncatedStream .invalidInputLength s
  have hint' : (raise .truncatedStream s).errInt = s.errInt := flag_raise .truncatedStream .invalidIntensity s
  exact ⟨by rwa [hlen', hint'], by rwa [hlen'], fun _ => hw⟩

/-- A reset of the ENC path clears its flags and leaves `ERR_TRUNC` and DC. -/
theorem flagsSound_resetEnc (b : BitVec 1) (hs : FlagsSound s) : FlagsSound (resetEnc b s) := by
  obtain ⟨-, -, htrunc⟩ := hs
  have htrunc' : (resetEnc b s).errTrunc = s.errTrunc := flag_resetEnc b s .truncatedStream
  exact flagsSound_of_running (encHalt_resetEnc b s) fun h => htrunc (htrunc' ▸ h)

/-- A reset of the DEC path clears `ERR_TRUNC` and leaves the flags of the ENC path and the triple. -/
theorem flagsSound_resetDec (hs : FlagsSound s) : FlagsSound (resetDec s) := by
  obtain ⟨hone, hlen, -⟩ := hs
  have hlen' : (resetDec s).errLen = s.errLen := flag_resetDec s .invalidInputLength
  have hint' : (resetDec s).errInt = s.errInt := flag_resetDec s .invalidIntensity
  have htrunc' : (resetDec s).errTrunc = false := flag_resetDec s .truncatedStream
  exact ⟨by rwa [hlen', hint'], by rwa [hlen'], by simp [htrunc']⟩

theorem exec_keeps_flagsSound (h : exec i s = .next t) (hs : FlagsSound s) : FlagsSound t := by
  cases exec_eq_next h with
  | encIgnored _ _ _ ht => rwa [ht]
  | decIgnored _ _ _ ht => rwa [ht]
  | encEffect _ _ _ he =>
    obtain ⟨hh, pk, cur, cnt, ts, rfl, -⟩ := he
    obtain ⟨-, -, htrunc⟩ := hs
    exact flagsSound_of_running hh htrunc
  | decEffect _ _ _ hd =>
    obtain ⟨hh, p, ts, rfl⟩ := hd
    obtain ⟨hone, hlen, -⟩ := hs
    exact ⟨hone, hlen, fun h => Bool.noConfusion (hh.symm.trans h)⟩
  | lengthFault _ hh hn ht => subst ht; exact flagsSound_raise_length hh hn hs
  | intensityFault v _ _ hh ht => subst ht; exact flagsSound_raise_intensity hh hs
  | truncatedFault _ _ hw ht => subst ht; exact flagsSound_raise_truncated hw hs
  | resetEnc b _ ht => rw [ht]; exact flagsSound_resetEnc b hs
  | resetDec _ ht => rw [ht]; exact flagsSound_resetDec hs
  | resetAll b _ ht => rw [ht]; exact flagsSound_resetDec (flagsSound_resetEnc b hs)
  | read r _ ht => subst ht; exact hs

theorem exec_keeps_inv (h : exec i s = .next t) (hs : s.Inv) : t.Inv := by
  obtain ⟨hrun, hflags⟩ := (inv_iff s).mp hs
  exact (inv_iff t).mpr ⟨exec_keeps_runSound h hrun, exec_keeps_flagsSound h hflags⟩

/-- The invariant does not look at the events to come, so a step keeps it as its operation does. -/
theorem stepAt_keeps_inv (hs : s.Inv) (h : stepAt W s = .next t) : t.Inv := by
  rcases stepAt_eq_next h with ⟨-, rfl⟩ | ⟨e, es, i, -, -, hi⟩
  · exact hs
  · exact exec_keeps_inv hi hs

/-- Settles O34: a step is idle or performs one operation, and every operation keeps both parts of the invariant. -/
theorem stepKeepsInvariant : Obligations.StepKeepsInvariant :=
  ⟨fun _ _ _ => stepAt_keeps_inv, fun _ _ => stepAt_keeps_inv⟩

/-- Settles O33: a reset leaves no run pending and no flag set. -/
theorem resetMeetsInvariant : Obligations.ResetMeetsInvariant := by
  have hreset : ∀ b : BitVec 1, (State.resetWith b).Inv := by decide
  exact ⟨hreset, hreset 0, fun W e he => absurd he List.not_mem_nil⟩

/-! ### Every run is defined (R200, R248) -/

/-- With an event that the ports can carry, or with none, a step from a sound state completes. -/
theorem stepAt_completes (hs : s.Inv) (hf : s.InboxFits W) : ∃ t, stepAt W s = .next t := by
  cases he : s.inbox with
  | nil => exact ⟨s, stepAt_of_idle W he⟩
  | cons e es =>
    obtain ⟨i, hi, hw⟩ := exists_encode_of_fits (hf e (by simp [he]))
    rw [stepAt_of_event he (hi ▸ decode_encode hw)]
    obtain ⟨hr, -⟩ := hs
    exact exec_completes i hr.mp

theorem stepAt_keeps_inboxFits (hf : s.InboxFits W) (h : stepAt W s = .next t) : t.InboxFits W := by
  rcases stepAt_eq_next h with ⟨-, rfl⟩ | ⟨e, es, i, he, -, hi⟩
  · exact hf
  · intro e' he'
    rw [exec_keeps_inbox hi] at he'
    exact hf e' (he ▸ List.mem_cons_of_mem e he')

theorem runAt_completes (n : Nat) (hs : s.Inv) (hf : s.InboxFits W) :
    ∃ t, runAt W n s = .next t ∧ t.Inv ∧ t.InboxFits W := by
  induction n generalizing s with
  | zero => exact ⟨s, rfl, hs, hf⟩
  | succ n ih =>
    obtain ⟨u, hu⟩ := stepAt_completes hs hf
    rw [runAt_succ, hu]
    exact ih (stepAt_keeps_inv hs hu) (stepAt_keeps_inboxFits hf hu)

/-- The host's run of steps is the one at the default width (R6). -/
theorem core_run_eq_runAt (n : Nat) (s : State) : Sys2Proof.core.run n s = runAt Config.intW n s := by
  induction n generalizing s with
  | zero => rfl
  | succ n ih =>
    rw [runAt_succ, ← step_eq_stepAt]
    cases h : step s with
    | next u => simp only [Host.Core.run, show Sys2Proof.core.step s = .next u from h]; exact ih u
    | fault f => simp only [Host.Core.run, show Sys2Proof.core.step s = .fault f from h]; rfl
    | refused r => simp only [Host.Core.run, show Sys2Proof.core.step s = .refused r from h]; rfl

/-- Settles O35: by induction on the steps, each of which completes and keeps the two premises. -/
theorem everyRunIsDefined : Obligations.EveryRunIsDefined := by
  refine ⟨fun W n s => runAt_completes n, fun n s hs hf => ?_⟩
  obtain ⟨t, ht, -, -⟩ := runAt_completes n hs hf
  exact ⟨t, (core_run_eq_runAt n s).trans ht⟩

/-! ### Steps perform the events in order (R53, R59) -/

/-- Settles O30: one case of the step each. -/
theorem stepRunsDecodedInstruction : Obligations.StepRunsDecodedInstruction := by
  refine ⟨fun W s e es i => stepAt_of_event, fun W s => stepAt_of_idle W, fun W s v es he hv => ?_,
    fun W s v es he hh hv hlt => ?_, fun s => rfl⟩
  · simp [stepAt, takeEvent, he, eventInstr, decode, decodeEvent_pixData_of_le hv]
  · rw [stepAt_of_event he (decodeEvent_pixData_of_lt hlt)]
    exact exec_pkPush_of_illegal (s := s.setInbox es) hh hv

/-- Events that all decode: the oldest one does, and the rest do. -/
theorem mapM_cons_eq_ok {α β ε : Type} {f : α → Except ε β} {x : α} {xs : List α} {zs : List β}
    (h : (x :: xs).mapM f = .ok zs) : ∃ y ys, f x = .ok y ∧ xs.mapM f = .ok ys ∧ zs = y :: ys := by
  rw [List.mapM_cons] at h
  cases hx : f x with
  | error e => simp [hx, bind, Except.bind] at h
  | ok y =>
    cases hxs : xs.mapM f with
    | error e => simp [hx, hxs, bind, Except.bind] at h
    | ok ys => exact ⟨y, ys, rfl, rfl, by simpa [hx, hxs, bind, Except.bind, pure, Except.pure] using h.symm⟩

/-- One step for each event that decodes performs the decoded operations, and leaves the rest of the events. -/
theorem runAt_eq_execAll (es rest : List HostEvent) (is : List Instr) (s : State)
    (hd : es.mapM (fun e => decode W (.event e)) = .ok is) :
    runAt W es.length (s.setInbox (es ++ rest)) = execAll is (s.setInbox rest) := by
  induction es generalizing is s with
  | nil =>
    cases hd
    rfl
  | cons e es ih =>
    obtain ⟨i, js, hi, hjs, rfl⟩ := mapM_cons_eq_ok hd
    rw [List.length_cons, runAt_succ, List.cons_append, stepAt_of_event (setInbox_inbox s _) hi]
    change andThen (exec i (s.setInbox (es ++ rest))) _ = andThen (exec i (s.setInbox rest)) _
    have hsame : Lifts (SameButInbox rest) (exec i (s.setInbox (es ++ rest))) (exec i (s.setInbox rest)) :=
      exec_setInbox i rest (s.setInbox (es ++ rest))
    have hkeep : ∀ t, exec i (s.setInbox (es ++ rest)) = .next t → t.inbox = es ++ rest := fun t => exec_keeps_inbox
    generalize exec i (s.setInbox (es ++ rest)) = o at hsame hkeep ⊢
    generalize exec i (s.setInbox rest) = o' at hsame ⊢
    cases hsame with
    | @next t u hu =>
      rw [andThen_next, andThen_next, hu, ← ih js t hjs, ← hkeep t rfl]
      rfl
    | fault f => rfl
    | refused r => rfl

/-- Settles O32: by induction on the events, since no operation looks at the events after its own. -/
theorem runTakesEventsInOrder : Obligations.RunTakesEventsInOrder :=
  ⟨fun _ es rest is s => runAt_eq_execAll es rest is s, core_run_eq_runAt⟩

end Sys2Proof.Proofs.Steps
end

section
/-! SUPPORT. Code streams and runs (spec/30_encoding.md R82 to R94, spec/44_properties.md R219 to R224): a stream read item by
item, the runs that `compress` closes and that they are the only ones, and the statements settled from these. -/

namespace Sys2Proof.Proofs.Sequences

open Sys2Proof.Machine Sys2Proof.Proofs.Packer Sys2Proof.Proofs.Compressor Sys2Proof.Proofs.Properties
open Sys2Proof.Proofs.Decoder

variable {c v w : Word} {L cnt : Byte} {cur : Option Word} {S W : List Word}

/-! ### A code stream, item by item (R82, R88) -/

/-- A code stream is empty, or begins with an item of one code, or with the two codes of a generic run; or it is cut off
after the first of those two. -/
theorem codeStream_induction {P : List Word → Prop} (nil : P [])
    (single : ∀ c S, lo c ≠ Config.sentGen → P S → P (c :: S))
    (truncated : ∀ c, lo c = Config.sentGen → P [c])
    (run : ∀ c v S, lo c = Config.sentGen → P S → P (c :: v :: S)) : ∀ S, P S
  | [] => nil
  | [c] => if h : lo c = Config.sentGen then truncated c h else single c [] h nil
  | c :: v :: S =>
    if h : lo c = Config.sentGen then run c v S h (codeStream_induction nil single truncated run S)
    else single c (v :: S) h (codeStream_induction nil single truncated run (v :: S))

/-- The item of one code that is not the first of a generic run. -/
def codeItem (c : Word) : Item :=
  if lo c = Config.sentZero then .zrun (hi c) else if lo c = Config.sentFull then .frun (hi c) else .lit c

theorem codeItem_zero (h : lo c = Config.sentZero) : codeItem c = .zrun (hi c) := if_pos h

theorem codeItem_full (h : lo c = Config.sentFull) : codeItem c = .frun (hi c) := by
  simp [codeItem, h, show Config.sentFull ≠ Config.sentZero by decide]

theorem codeItem_literal (h : isSentinel (lo c) = false) : codeItem c = .lit c := by
  obtain ⟨hz, hf, -⟩ := (isSentinel_false_iff _).mp h
  simp [codeItem, hz, hf]

theorem codeItem_codes (c : Word) : (codeItem c).codes = [c] := by
  unfold codeItem
  split
  · exact congrArg (fun x => [x]) (escape_hi_of_lo ‹_›)
  · split
    · exact congrArg (fun x => [x]) (escape_hi_of_lo ‹_›)
    · rfl

theorem hi_toNat_le (c : Word) : (hi c).toNat ≤ 255 := Nat.le_of_lt_succ (hi c).isLt

theorem codeItem_count_le (c : Word) : (codeItem c).count ≤ 255 := by
  unfold codeItem
  split
  · exact hi_toNat_le c
  · split
    · exact hi_toNat_le c
    · exact Nat.le_add_left 1 254

theorem itemise_single (h : lo c ≠ Config.sentGen) (S : List Word) :
    itemise (c :: S) = (itemise S).map (codeItem c :: ·) := by
  rw [itemise.eq_def (c :: S)]
  unfold codeItem
  by_cases hz : lo c = Config.sentZero
  · simp [hz]
  · by_cases hf : lo c = Config.sentFull
    · simp [hf, show Config.sentFull ≠ Config.sentZero by decide]
    · simp [hz, hf, h]

theorem itemise_run (h : lo c = Config.sentGen) (v : Word) (S : List Word) :
    itemise (c :: v :: S) = (itemise S).map (.grun (hi c) v :: ·) := by
  simp [itemise, h, show Config.sentGen ≠ Config.sentZero by decide, show Config.sentGen ≠ Config.sentFull by decide]

theorem itemise_truncated (h : lo c = Config.sentGen) : itemise [c] = .error .truncatedStream := by
  simp [itemise, h, show Config.sentGen ≠ Config.sentZero by decide, show Config.sentGen ≠ Config.sentFull by decide]

theorem decodeStream_single (h : lo c ≠ Config.sentGen) (S : List Word) :
    decodeStream (c :: S) = (decodeStream S).map ((codeItem c).expand ++ ·) := by
  rcases code_class c with hc | hc | hc | hc
  · rw [decodeStream_zero hc, codeItem_zero hc]
    rfl
  · rw [decodeStream_full hc, codeItem_full hc]
    rfl
  · exact absurd hc h
  · rw [decodeStream_literal hc, codeItem_literal hc]
    rfl

theorem decodeStream_truncated (h : lo c = Config.sentGen) : decodeStream [c] = .error .truncatedStream := by
  simp [decodeStream, h, show Config.sentGen ≠ Config.sentZero by decide,
    show Config.sentGen ≠ Config.sentFull by decide]

/-- In escape position a code that is not the first of a generic run emits the words of its item (R162 to R164). -/
theorem escapePosition_single (h : lo c ≠ Config.sentGen) (s : State) :
    escapePosition c s = s.emitWord ((codeItem c).expand.map .w) := by
  rcases code_class c with hc | hc | hc | hc
  · rw [escapePosition_zero hc, codeItem_zero hc, Item.expand, List.map_replicate]
    rfl
  · rw [escapePosition_full hc, codeItem_full hc, Item.expand, List.map_replicate]
    rfl
  · exact absurd hc h
  · rw [escapePosition_literal hc, codeItem_literal hc]
    rfl

theorem decodeStream_eq_itemise (S : List Word) :
    decodeStream S = (itemise S).map (fun items => items.flatMap Item.expand) := by
  induction S using codeStream_induction with
  | nil => rfl
  | single c S h ih =>
    rw [decodeStream_single h, itemise_single h, ih]
    cases itemise S <;> rfl
  | truncated c h => rw [decodeStream_truncated h, itemise_truncated h]; rfl
  | run c v S h ih =>
    rw [decodeStream_gen h, itemise_run h, ih]
    cases itemise S <;> rfl

/-- An answer of `Except.map` comes from an answer. -/
theorem map_eq_ok {α β : Type} {f : α → β} {o : Except PathFault α} {b : β} (h : o.map f = .ok b) :
    ∃ a, o = .ok a ∧ f a = b := by
  cases o with
  | ok a => exact ⟨a, rfl, Except.ok.inj h⟩
  | error e => cases h

theorem itemise_codes {items : List Item} (h : itemise S = .ok items) : items.flatMap Item.codes = S := by
  induction S using codeStream_induction generalizing items with
  | nil => cases h; rfl
  | single c S hc ih =>
    rw [itemise_single hc] at h
    obtain ⟨rest, hrest, rfl⟩ := map_eq_ok h
    rw [List.flatMap_cons, codeItem_codes, ih hrest, List.singleton_append]
  | truncated c hc => simp [itemise_truncated hc] at h
  | run c v S hc ih =>
    rw [itemise_run hc] at h
    obtain ⟨rest, hrest, rfl⟩ := map_eq_ok h
    rw [List.flatMap_cons, ih hrest, Item.codes, escape_hi_of_lo hc]
    rfl

/-- `decode` fails only on a stream whose last code is the first of a generic run, and the codes before it decode. -/
theorem decodeStream_error {f : PathFault} (h : decodeStream S = .error f) :
    f = .truncatedStream ∧ ∃ X c W, S = X ++ [c] ∧ lo c = Config.sentGen ∧ decodeStream X = .ok W := by
  induction S using codeStream_induction with
  | nil => cases h
  | single c S hc ih =>
    rw [decodeStream_single hc] at h
    cases hS : decodeStream S with
    | ok W => simp [hS, Except.map] at h
    | error g =>
      obtain rfl : g = f := by simpa [hS, Except.map] using h
      obtain ⟨hf, X, d, W, rfl, hd, hX⟩ := ih hS
      exact ⟨hf, c :: X, d, (codeItem c).expand ++ W, rfl, hd, by rw [decodeStream_single hc, hX]; rfl⟩
  | truncated c hc =>
    rw [decodeStream_truncated hc] at h
    cases h
    exact ⟨rfl, [], c, [], rfl, hc, rfl⟩
  | run c v S hc ih =>
    rw [decodeStream_gen hc] at h
    cases hS : decodeStream S with
    | ok W => simp [hS, Except.map] at h
    | error g =>
      obtain rfl : g = f := by simpa [hS, Except.map] using h
      obtain ⟨hf, X, d, W, rfl, hd, hX⟩ := ih hS
      exact ⟨hf, c :: v :: X, d, List.replicate (hi c).toNat v ++ W, rfl, hd, by rw [decodeStream_gen hc, hX]; rfl⟩

/-- Settles O50: by induction along the items of the stream. -/
theorem decodeExpandsItems : Obligations.DecodeExpandsItems :=
  ⟨decodeStream_eq_itemise, fun _ _ => itemise_codes, fun _ _ h => (decodeStream_error h).1⟩

/-! ### Bounds (R224) -/

theorem decodeStream_length_le (h : decodeStream S = .ok W) : W.length ≤ 255 * S.length := by
  induction S using codeStream_induction generalizing W with
  | nil => cases h; rfl
  | single c S hc ih =>
    rw [decodeStream_single hc] at h
    obtain ⟨V, hV, rfl⟩ := map_eq_ok h
    have hcount := codeItem_count_le c
    have hrest := ih hV
    simp only [Item.expand, List.length_append, List.length_replicate, List.length_cons]
    omega
  | truncated c hc => simp [decodeStream_truncated hc] at h
  | run c v S hc ih =>
    rw [decodeStream_gen hc] at h
    obtain ⟨V, hV, rfl⟩ := map_eq_ok h
    have hcount := hi_toNat_le c
    have hrest := ih hV
    simp only [List.length_append, List.length_replicate, List.length_cons]
    omega

/-- One code emits at most 255 data tokens and no `EOS`. -/
theorem exec_dcPush_emits (c : Word) (s : State) :
    ∃ t ws, exec (.dcPush c) s = .next t ∧ t.wordOut = s.wordOut ++ List.map .w ws ∧ ws.length ≤ 255 := by
  cases hh : s.decHalt
  · cases hd : s.dcPend with
    | none =>
      rw [exec_dcPush_escapePosition c hh hd]
      rcases escapePosition_cases c s with ⟨v, n, hn, h⟩ | ⟨-, h⟩
      · exact ⟨_, List.replicate n v, rfl, by rw [h, List.map_replicate]; rfl, by rwa [List.length_replicate]⟩
      · exact ⟨_, [], rfl, by rw [h]; exact (List.append_nil _).symm, Nat.zero_le _⟩
    | some n =>
      refine ⟨_, List.replicate n.toNat c, decOp_orOperand_waiting c _ hh hd, by rw [List.map_replicate]; rfl, ?_⟩
      rw [List.length_replicate]
      exact Nat.le_of_lt_succ n.isLt
  · exact ⟨s, [], decOp_of_halted _ hh, (List.append_nil _).symm, Nat.zero_le _⟩

theorem pack_length {I : List Nat} (h : pack I = .ok W) : W.length = I.length / 3 := by
  obtain ⟨-, -, rfl⟩ := (pack_eq_ok_iff I W).mp h
  exact packTriples_length I

/-- Settles O51: an item of one or two codes stands for at most 255 words, and a word for three intensities. -/
theorem expansionIsBounded : Obligations.ExpansionIsBounded :=
  ⟨fun _ _ => decodeStream_length_le, exec_dcPush_emits, fun _ _ => pack_length⟩

/-! ### Raw words (R196, R219) -/

theorem decodeStream_of_domain (h : roundTripDomain W) : decodeStream W = .ok W := by
  induction W with
  | nil => rfl
  | cons w W ih =>
    obtain ⟨hw, hW⟩ := List.forall_mem_cons.mp h
    rw [decodeStream_literal hw, ih hW]
    rfl

theorem packTriples_domain : ∀ I : List Nat, roundTripDomain (packTriples I)
  | [] => fun _ h => absurd h List.not_mem_nil
  | [_] => fun _ h => absurd h List.not_mem_nil
  | [_, _] => fun _ h => absurd h List.not_mem_nil
  | _ :: _ :: _ :: I =>
    List.forall_mem_cons.mpr ⟨isSentinel_lo_of_five_clear (packw_getLsbD_five ..), packTriples_domain I⟩

/-- The words that `pack` makes have bit 5 clear, so they are in the domain of R210. -/
theorem pack_domain {I : List Nat} (h : pack I = .ok W) : roundTripDomain W := by
  obtain ⟨-, -, rfl⟩ := (pack_eq_ok_iff I W).mp h
  exact packTriples_domain I

/-- Settles O45: DC reads every word of the domain, and so every packed word, as a literal. -/
theorem rawWordsDecodeToThemselves : Obligations.RawWordsDecodeToThemselves :=
  ⟨fun _ => ⟨rfl, decodeStream_of_domain⟩, fun _ _ h => decodeStream_of_domain (pack_domain h)⟩

/-! ### The runs of a sequence (R221) -/

theorem mem_pendingRun {r : Word × Byte} (h : r ∈ pendingRun cur cnt) : cur = some r.1 ∧ r.2 = cnt ∧ cnt ≠ 0#8 := by
  cases cur with
  | none => exact absurd h List.not_mem_nil
  | some v =>
    by_cases hc : cnt = 0#8
    · simp [hc] at h
    · rw [pendingRun_some v hc, List.mem_singleton] at h
      subst h
      exact ⟨rfl, rfl, hc⟩

/-- No run of the scan is empty. -/
theorem runsFrom_ne_zero {r : Word × Byte} (hr : r ∈ runsFrom cur cnt W) : r.2 ≠ 0#8 := by
  have pending_ne_zero {cur cnt} (h : r ∈ pendingRun cur cnt) : r.2 ≠ 0#8 := by
    obtain ⟨-, heq, hc⟩ := mem_pendingRun h
    rwa [heq]
  induction W generalizing cur cnt with
  | nil => exact pending_ne_zero hr
  | cons w W ih =>
    cases he : extendsRun w cur cnt
    · rw [runsFrom_closing he, List.mem_append] at hr
      exact hr.elim pending_ne_zero ih
    · rw [runsFrom_extending he] at hr
      exact ih hr

/-- The first run of the scan from a pending run has the value of that run. -/
theorem runsFrom_head_value {r : Word × Byte} (hc : cnt ≠ 0#8) (hr : r ∈ (runsFrom (some v) cnt W).head?) : r.1 = v := by
  induction W generalizing cnt with
  | nil =>
    obtain ⟨hv, -⟩ := mem_pendingRun (List.mem_of_mem_head? hr)
    exact (Option.some.inj hv).symm
  | cons w W ih =>
    cases he : extendsRun w (some v) cnt
    · rw [runsFrom_closing he, pendingRun_some v hc] at hr
      cases hr
      rfl
    · rw [runsFrom_extending he] at hr
      obtain ⟨-, -, hlt⟩ := (extendsRun_iff ..).mp he
      exact ih (cnt_succ_ne_zero hlt) hr

/-- Two runs that can follow each other: one value is repeated only after a run of 255. -/
def RunsApart (a b : Word × Byte) : Prop := a.1 = b.1 → a.2.toNat = 255

/-- A word that does not extend a pending run of its own value finds the run at the cap. -/
theorem cap_of_not_extends (hc : cnt ≠ 0#8) (h : extendsRun w (some w) cnt = false) : cnt.toNat = 255 := by
  have hle : ¬ cnt < 255#8 := fun hlt => Bool.noConfusion (h.symm.trans ((extendsRun_iff ..).mpr ⟨hc, rfl, hlt⟩))
  bv_omega

theorem runsFrom_isChain (cur : Option Word) (cnt : Byte) (W : List Word) :
    (runsFrom cur cnt W).IsChain RunsApart := by
  have pending_isChain (cur cnt) : (pendingRun cur cnt).IsChain RunsApart := by
    unfold pendingRun
    split
    · split
      · exact .nil
      · exact .singleton _
    · exact .nil
  induction W generalizing cur cnt with
  | nil => exact pending_isChain cur cnt
  | cons w W ih =>
    cases he : extendsRun w cur cnt
    · rw [runsFrom_closing he]
      refine List.isChain_append.mpr ⟨pending_isChain cur cnt, ih (some w) 1#8, fun a ha b hb hab => ?_⟩
      obtain ⟨rfl, hcnt, hc⟩ := mem_pendingRun (List.mem_of_mem_getLast? ha)
      rw [hab, runsFrom_head_value (by decide) hb] at he
      rw [hcnt]
      exact cap_of_not_extends hc he
    · rw [runsFrom_extending he]
      exact ih cur (cnt + 1#8)

/-- Settles O47: the scan closes no empty run, repeats a value only at the cap, and loses no word. -/
theorem compressFollowsRuns : Obligations.CompressFollowsRuns := by
  refine fun W => ⟨compress_eq_flatMap_runs W, runs_words W, ?_, fun r hr => ?_, fun X Y a b hruns => ?_⟩
  · have hlen := congrArg List.length (runs_words W)
    rw [List.length_flatMap] at hlen
    simpa only [runWords, List.length_replicate] using hlen
  · have hne : r.2 ≠ 0#8 := runsFrom_ne_zero hr
    bv_omega
  · have hchain : (runs W).IsChain RunsApart := runsFrom_isChain none 0#8 W
    rw [hruns] at hchain
    obtain ⟨-, htail, -⟩ := List.isChain_append.mp hchain
    exact (List.isChain_cons_cons.mp htail).1

/-! ### Runs determine what `compress` emits (R139, R220) -/

/-- Equal words that the next word does not extend are one finalized run. -/
theorem compress_run_append (v : Word) (hL : L ≠ 0#8) (rest : List Word)
    (h : ∀ w ∈ rest.head?, w ≠ v ∨ L = 255#8) :
    compress (List.replicate L.toNat v ++ rest) = finCodes v L ++ compress rest := by
  rw [compress_replicate_append v (by bv_omega) (by bv_omega), BitVec.ofNat_toNat, BitVec.setWidth_eq]
  cases rest with
  | nil => exact (finPending_some v hL).trans (List.append_nil _).symm
  | cons w rest =>
    rw [compressFrom_closing (extendsRun_eq_false_of_closes (h w rfl)), finPending_some v hL, compress_cons]

theorem compress_cap_and_rest (V : Word) (q : Nat) {r : Nat} (hr : r < 255) :
    compress (List.replicate (255 * q + r) V) =
      (List.replicate q (finCodes V 255)).flatten ++ (if r = 0 then [] else finCodes V (BitVec.ofNat 8 r)) := by
  induction q with
  | zero =>
    by_cases h0 : r = 0
    · subst h0
      rfl
    · rw [Nat.mul_zero, Nat.zero_add, compress_replicate V (by omega) (by omega), if_neg h0]
      rfl
  | succ q ih =>
    rw [Nat.mul_succ, Nat.add_assoc, Nat.add_comm 255 r, ← Nat.add_assoc, Nat.add_comm _ 255,
      ← List.replicate_append_replicate, List.replicate_succ (a := finCodes V 255), List.flatten_cons, List.append_assoc, ← ih]
    exact compress_run_append V (L := 255#8) (by decide) _ fun _ _ => .inr rfl

/-- Settles O48: `N` is 255 times the quotient and the rest. -/
theorem longRunsAreSplit : Obligations.LongRunsAreSplit := by
  intro N V
  have h := compress_cap_and_rest V (N / 255) (Nat.mod_lt N (by decide : 0 < 255))
  rwa [Nat.div_add_mod] at h

theorem finCodes_length_le (V : Word) (L : Byte) : (finCodes V L).length ≤ if L = 1#8 then 1 else 2 := by
  unfold finCodes
  split
  · exact Nat.le_refl 1
  · split
    · exact Nat.le_add_left 1 1
    · split
      · exact Nat.le_add_left 1 1
      · exact Nat.le_refl 2

/-- The codes of a run are at most as many as its words. -/
theorem runCodes_length_le {r : Word × Byte} (hr : r.2 ≠ 0#8) : (runCodes r).length ≤ (runWords r).length := by
  refine (finCodes_length_le r.1 r.2).trans ?_
  rw [runWords, List.length_replicate]
  split <;> bv_omega

theorem compress_length_le (W : List Word) : (compress W).length ≤ W.length := by
  calc (compress W).length
      = ((runs W).map fun r => (runCodes r).length).sum := by rw [compress_eq_flatMap_runs, List.length_flatMap]
    _ ≤ ((runs W).map fun r => (runWords r).length).sum :=
        List.sum_le_sum fun _ hr => runCodes_length_le (runsFrom_ne_zero hr)
    _ = W.length := by rw [← List.length_flatMap, runs_words]

/-- Without equal neighbours every word is a run of one. -/
theorem compress_of_no_neighbours (h : ∀ X Y v, W ≠ X ++ v :: v :: Y) : compress W = W := by
  induction W with
  | nil => rfl
  | cons w W ih =>
    have hhead : ∀ u ∈ W.head?, u ≠ w ∨ 1#8 = 255#8 := by
      rintro u hu
      obtain ⟨Y, rfl⟩ := List.head?_eq_some_iff.mp hu
      exact .inl fun huw => h [] Y w (by rw [huw]; rfl)
    have hrun := compress_run_append w (L := 1#8) (by decide) W hhead
    rw [finCodes_one, ih fun X Y v hW => h (w :: X) Y v (by rw [hW]; rfl)] at hrun
    exact hrun

/-- Settles O46: run by run, and a run of one is its word. -/
theorem compressNeverLengthens : Obligations.CompressNeverLengthens :=
  ⟨compress_length_le, fun V L _ => finCodes_length_le V L, fun _ => compress_of_no_neighbours⟩

/-- Runs that are not empty, and repeat a value only after a run of 255, are the runs of their words. -/
theorem compress_flatMap_runWords (rs : List (Word × Byte)) (hpos : ∀ r ∈ rs, r.2 ≠ 0#8) (hchain : rs.IsChain RunsApart) :
    compress (rs.flatMap runWords) = rs.flatMap runCodes := by
  induction rs with
  | nil => rfl
  | cons r rs ih =>
    obtain ⟨hr, hrs⟩ := List.forall_mem_cons.mp hpos
    rw [List.flatMap_cons, List.flatMap_cons, ← ih hrs hchain.tail]
    refine compress_run_append r.1 hr _ fun w hw => ?_
    cases rs with
    | nil => cases hw
    | cons q qs =>
      have hq : q.2.toNat ≠ 0 := fun h0 => hrs q List.mem_cons_self (BitVec.eq_of_toNat_eq h0)
      obtain ⟨n, hn⟩ := Nat.exists_eq_succ_of_ne_zero hq
      obtain rfl : q.1 = w := by simpa [runWords, hn, List.replicate_succ] using hw
      by_cases heq : q.1 = r.1
      · exact .inr (BitVec.eq_of_toNat_eq ((List.isChain_cons_cons.mp hchain).1 heq.symm))
      · exact .inl heq

/-! ### Canonical streams (R94) -/

theorem canonicalItems_iff (items : List Item) :
    canonicalItems items = true ↔
      (∀ i ∈ items, i.canonical = true) ∧ items.IsChain (fun i j => i.value = j.value → i.count = 255) := by
  induction items with
  | nil => simp [canonicalItems]
  | cons i items ih =>
    cases items with
    | nil => simp [canonicalItems]
    | cons j rest =>
      have hnext : (i.value ≠ j.value ∨ i.count = 255) ↔ (i.value = j.value → i.count = 255) := Decidable.imp_iff_not_or.symm
      simp only [canonicalItems, Bool.and_eq_true, Bool.or_eq_true, decide_eq_true_iff, ih, hnext,
        List.isChain_cons_cons, List.forall_mem_cons]
      tauto

/-- The item whose codes are those of a run. -/
def runItem (r : Word × Byte) : Item :=
  if r.2 = 1#8 then .lit r.1
  else if r.1 = Config.vZero then .zrun r.2
  else if r.1 = Config.vFull then .frun r.2
  else .grun r.2 r.1

theorem runItem_spec {r : Word × Byte} (hr : r.2 ≠ 0#8) (hv : isSentinel (lo r.1) = false) :
    (runItem r).codes = runCodes r ∧ (runItem r).value = r.1 ∧ (runItem r).count = r.2.toNat ∧
      (runItem r).canonical = true := by
  obtain ⟨V, L⟩ := r
  simp only [runItem, runCodes]
  by_cases h1 : L = 1#8
  · subst h1
    exact ⟨rfl, rfl, rfl, by simp [Item.canonical, hv]⟩
  · have h2 : 2 ≤ L.toNat := by bv_omega
    rw [if_neg h1]
    by_cases hz : V = Config.vZero
    · subst hz
      rw [if_pos rfl, finCodes_zero h1]
      exact ⟨rfl, rfl, rfl, by simpa [Item.canonical] using h2⟩
    · by_cases hf : V = Config.vFull
      · subst hf
        rw [if_neg hz, if_pos rfl, finCodes_full h1]
        exact ⟨rfl, rfl, rfl, by simpa [Item.canonical] using h2⟩
      · rw [if_neg hz, if_neg hf, finCodes_generic h1 hz hf]
        exact ⟨rfl, rfl, rfl, by simp [Item.canonical, h2, hz, hf, hv]⟩

/-- The run that an item stands for. -/
def itemRun (i : Item) : Word × Byte := (i.value, BitVec.ofNat 8 i.count)

theorem itemRun_spec {i : Item} (h : i.canonical = true) :
    runCodes (itemRun i) = i.codes ∧ (itemRun i).2.toNat = i.count ∧ (itemRun i).2 ≠ 0#8 ∧
      isSentinel (lo i.value) = false := by
  have byte_ofNat_toNat (n : Byte) : BitVec.ofNat 8 n.toNat = n := by simp
  have ne_one {n : Byte} (h2 : 2 ≤ n.toNat) : n ≠ 1#8 := by bv_omega
  have ne_zero {n : Byte} (h2 : 2 ≤ n.toNat) : n ≠ 0#8 := by bv_omega
  cases i with
  | lit v => exact ⟨rfl, rfl, (by decide : 1#8 ≠ 0#8), by simpa [Item.canonical, Item.value] using h⟩
  | zrun n =>
    have h2 : 2 ≤ n.toNat := by simpa [Item.canonical] using h
    rw [show itemRun (.zrun n) = (Config.vZero, n) from congrArg (Prod.mk Config.vZero) (byte_ofNat_toNat n)]
    exact ⟨finCodes_zero (ne_one h2), rfl, ne_zero h2, (by decide : isSentinel (lo Config.vZero) = false)⟩
  | frun n =>
    have h2 : 2 ≤ n.toNat := by simpa [Item.canonical] using h
    rw [show itemRun (.frun n) = (Config.vFull, n) from congrArg (Prod.mk Config.vFull) (byte_ofNat_toNat n)]
    exact ⟨finCodes_full (ne_one h2), rfl, ne_zero h2, (by decide : isSentinel (lo Config.vFull) = false)⟩
  | grun n v =>
    obtain ⟨⟨⟨h2, hz⟩, hf⟩, hv⟩ : ((2 ≤ n.toNat ∧ v ≠ Config.vZero) ∧ v ≠ Config.vFull) ∧ isSentinel (lo v) = false := by
      simpa [Item.canonical] using h
    rw [show itemRun (.grun n v) = (v, n) from congrArg (Prod.mk v) (byte_ofNat_toNat n)]
    exact ⟨finCodes_generic (ne_one h2) hz hf, rfl, ne_zero h2, hv⟩

/-- The items of the runs of a sequence in the domain are canonical, and their codes are what `compress` emits. -/
theorem exists_canonicalItems (hW : roundTripDomain W) :
    ∃ items : List Item, canonicalItems items = true ∧ compress W = items.flatMap Item.codes := by
  have hitem : ∀ r ∈ runs W, (runItem r).codes = runCodes r ∧ (runItem r).value = r.1 ∧
      (runItem r).count = r.2.toNat ∧ (runItem r).canonical = true := fun r hr =>
    runItem_spec (runsFrom_ne_zero hr) (hW _ (mem_of_mem_runs hr (runsFrom_ne_zero hr)))
  refine ⟨(runs W).map runItem, (canonicalItems_iff _).mpr ⟨?_, ?_⟩, ?_⟩
  · rintro i hi
    obtain ⟨r, hr, rfl⟩ := List.mem_map.mp hi
    obtain ⟨-, -, -, hcan⟩ := hitem r hr
    exact hcan
  · rw [List.isChain_map]
    refine List.IsChain.imp_of_mem_imp (fun a b ha hb hab => ?_) (runsFrom_isChain none 0#8 W)
    obtain ⟨-, hva, hca, -⟩ := hitem a ha
    obtain ⟨-, hvb, -, -⟩ := hitem b hb
    rwa [hva, hvb, hca]
  · rw [compress_eq_flatMap_runs, List.flatMap_map]
    exact List.flatMap_congr fun r hr => (hitem r hr).1.symm

/-- The words that a canonical stream stands for are in the domain, and `compress` makes the stream of them. -/
theorem compress_of_canonicalItems {items : List Item} (h : canonicalItems items = true) :
    ∃ W, roundTripDomain W ∧ compress W = items.flatMap Item.codes := by
  obtain ⟨hcan, hchain⟩ := (canonicalItems_iff items).mp h
  have hspec := fun i hi => itemRun_spec (hcan i hi)
  refine ⟨(items.map itemRun).flatMap runWords, fun w hw => ?_, ?_⟩
  · obtain ⟨r, hr, hwr⟩ := List.mem_flatMap.mp hw
    obtain ⟨i, hi, rfl⟩ := List.mem_map.mp hr
    obtain ⟨-, -, -, hv⟩ := hspec i hi
    rwa [List.eq_of_mem_replicate hwr]
  · rw [compress_flatMap_runWords, List.flatMap_map]
    · exact List.flatMap_congr fun i hi => (hspec i hi).1
    · rintro r hr
      obtain ⟨i, hi, rfl⟩ := List.mem_map.mp hr
      obtain ⟨-, -, hne, -⟩ := hspec i hi
      exact hne
    · rw [List.isChain_map]
      refine List.IsChain.imp_of_mem_imp (fun i j hi _ hij hval => ?_) hchain
      obtain ⟨-, hcount, -, -⟩ := hspec i hi
      rw [hcount]
      exact hij hval

/-- Settles O49: canonical items and the runs of a sequence in the domain are two names of the same lists. -/
theorem compressImageIsCanonical : Obligations.CompressImageIsCanonical := by
  refine fun S => ⟨?_, ?_⟩
  · rintro ⟨W, hW, rfl⟩
    exact exists_canonicalItems hW
  · rintro ⟨items, hitems, rfl⟩
    exact compress_of_canonicalItems hitems

end Sys2Proof.Proofs.Sequences
end

section
/-! SUPPORT. Streaming equals batch (spec/40_packer.md R118, spec/41_compressor.md R141, spec/42_decoder.md R169,
spec/43_system.md R195, spec/44_properties.md R223): sequences of pushes and their END, and the statements settled from
these. -/

namespace Sys2Proof.Proofs.Streaming

open Sys2Proof.Machine Sys2Proof.Proofs.Packer Sys2Proof.Proofs.Compressor Sys2Proof.Proofs.Decoder
open Sys2Proof.Proofs.System Sys2Proof.Proofs.Properties Sys2Proof.Proofs.Exceptions
open Sys2Proof.Proofs.Sequences

variable {s t : State} {w : Word} {W S : List Word} {I : List Nat} {is js : List Instr}

/-! ### Sequences of operations put together -/

theorem execAll_append (h : execAll is s = .next t) (js : List Instr) : execAll (is ++ js) s = execAll js t := by
  induction is generalizing s with
  | nil => cases h; rfl
  | cons i is ih =>
    obtain ⟨u, hu, hs⟩ := execAll_cons_eq_next.mp h
    rw [List.cons_append, execAll, hu]
    exact ih hs

theorem execAll_cons {i : Instr} (h : exec i s = .next t) (is : List Instr) : execAll (i :: is) s = execAll is t := by
  rw [execAll, h, andThen_next]

theorem execAll_singleton (i : Instr) (s : State) : execAll [i] s = exec i s := by
  cases h : exec i s <;> simp [execAll, h, andThen]

/-- A halted ENC path ignores a whole sequence of its operations, up to the next reset (R244). -/
theorem execAll_of_encHalted (hh : s.encHalt = true) (h : ∀ i ∈ is, i.onEnc = true ∧ i.isReset = false) :
    execAll is s = .next s := by
  induction is with
  | nil => rfl
  | cons i is ih =>
    obtain ⟨⟨hon, hr⟩, hrest⟩ := List.forall_mem_cons.mp h
    rw [execAll_cons (exec_of_encHalted hh hon hr), ih hrest]

/-! ### Words in front of the Compressor (R141) -/

/-- In bypass the words are emitted as they come. -/
theorem execAll_cpPush_of_bypass (W : List Word) (hh : s.encHalt = false) (hb : s.bypass = true) :
    execAll (W.map .cpPush) s = .next (s.emitCode (W.map .w)) := by
  induction W generalizing s with
  | nil => rw [List.map_nil, List.map_nil, emitCode_nil]; rfl
  | cons w W ih =>
    rw [List.map_cons, execAll_cons (exec_cpPush_of_bypass w hh hb)]
    refine (ih (by exact hh) (by exact hb)).trans ?_
    simp [State.emitCode]

/-- Outside bypass the words and `CP.END` emit what the scan of `compress` emits from the pending run. -/
theorem execAll_cpPush_cpEnd (W : List Word) (hh : s.encHalt = false) (hb : s.bypass = false)
    (hr : s.cur = none → s.cnt = 0#8) :
    execAll (W.map .cpPush ++ [.cpEnd]) s =
      .next ((s.setRun none 0#8).emitCode ((compressFrom s.cur s.cnt W).map .w ++ [.eos])) := by
  induction W generalizing s with
  | nil =>
    rw [List.map_nil, List.nil_append, execAll_singleton, exec_cpEnd_of_runValue hh hr]
    simp [State.emitCode, State.setRun, compressFrom]
  | cons w W ih =>
    rw [List.map_cons, List.cons_append]
    cases he : extendsRun w s.cur s.cnt
    · have hw := (exec_cpPush_of_running w hh).trans (takeWord_of_runValue hr hb he)
      rw [execAll_cons hw, compressFrom_closing he]
      refine (ih (by exact hh) (by exact hb) (by simp)).trans ?_
      simp [State.emitCode, State.setRun]
    · obtain ⟨-, hv, -⟩ := (extendsRun_iff ..).mp he
      rw [execAll_cons (exec_cpPush_extending hh hb he), compressFrom_extending he]
      exact ih (by exact hh) (by exact hb) (by simp [hv])

/-- What CP emits for a whole sequence of words (R140, R141). -/
def emittedCodes (bypass : Bool) (W : List Word) : List Word := if bypass then W else compress W

theorem execAll_cpPush_cpEnd_of_idle (W : List Word) (hv : s.cur = none) (hc : s.cnt = 0#8) (hh : s.encHalt = false) :
    execAll (W.map .cpPush ++ [.cpEnd]) s =
      .next (s.emitCode ((emittedCodes s.bypass W).map .w ++ [.eos])) := by
  cases hb : s.bypass
  · rw [execAll_cpPush_cpEnd W hh hb fun _ => hc, setRun_none_of_idle hv hc, hv, hc]
    rfl
  · rw [execAll_append (execAll_cpPush_of_bypass W hh hb), execAll_singleton,
      exec_cpEnd_idle (s := s.emitCode (W.map .w)) hh hc, setRun_none_of_idle (s := s.emitCode (W.map .w)) hv hc]
    simp [State.emitCode, emittedCodes]

/-- Settles O53: in bypass word by word, else by the scan of `compress`, which begins with no run. -/
theorem streamingCompressEqualsBatch : Obligations.StreamingCompressEqualsBatch := by
  intro W s hv hc hh
  rw [execAll_cpPush_cpEnd_of_idle W hv hc hh, State.emitCode, ← List.append_assoc]
  rfl

/-! ### Intensities in front of the Packer (R118, R195) -/

/-- CP leaves the triple under assembly, and takes no fault. -/
theorem exec_cpPush_keeps_pk (h : exec (.cpPush w) s = .next t) : t.pk = s.pk ∧ t.encHalt = s.encHalt := by
  rcases encOp_eq_next h with ⟨-, rfl⟩ | ⟨-, h⟩
  · exact ⟨rfl, rfl⟩
  · rcases takeWord_eq_next h with ⟨-, rfl⟩ | ⟨-, -, rfl⟩ | ⟨-, -, -, rfl⟩ <;> exact ⟨rfl, rfl⟩

/-- Emptying a triple that is empty already changes nothing. -/
theorem setPk_of_empty (hp : s.pk = .empty) : s.setPk .empty = s := by
  rw [← hp]
  rfl

/-- Three legal intensities are one word for CP (R113). -/
theorem execAll_triple {p0 p1 p2 : Nat} (hh : s.encHalt = false) (hp : s.pk = .empty) (h0 : p0 ≤ 31) (h1 : p1 ≤ 31)
    (h2 : p2 ≤ 31) (is : List Instr) :
    execAll (.pkPush p0 :: .pkPush p1 :: .pkPush p2 :: is) s =
      execAll (.cpPush (packw (laneOf p0) (laneOf p1) (laneOf p2)) :: is) s := by
  have hback : (((s.setPk (.one (laneOf p0))).setPk (.two (laneOf p0) (laneOf p1))).setPk .empty) = s :=
    setPk_of_empty hp
  rw [execAll_cons (exec_pkPush_first hh h0 hp),
    execAll_cons (exec_pkPush_second (s := s.setPk (.one (laneOf p0))) hh h1 rfl), execAll,
    exec_pkPush_third (s := (s.setPk (.one (laneOf p0))).setPk (.two (laneOf p0) (laneOf p1))) hh h2 rfl, hback]
  rfl

/-- Complete triples and `PK.END` act as the packed words and `CP.END` (R54). -/
theorem execAll_pkPush_pkEnd : ∀ (I : List Nat) (s : State), (∀ v ∈ I, v ≤ 31) → I.length % 3 = 0 →
    s.encHalt = false → s.pk = .empty →
    execAll (I.map .pkPush ++ [.pkEnd]) s = execAll ((packTriples I).map .cpPush ++ [.cpEnd]) s
  | [], s, _, _, hh, hp => by
    have hend : exec .pkEnd s = exec .cpEnd s := exec_pkEnd_of_empty hh ((pkN_eq_zero_iff s).mpr hp)
    exact (execAll_singleton .pkEnd s).trans (hend.trans (execAll_singleton .cpEnd s).symm)
  | [_], _, _, hn, _, _ => absurd hn (by simp)
  | [_, _], _, _, hn, _, _ => absurd hn (by simp)
  | p0 :: p1 :: p2 :: I, s, h, hn, hh, hp => by
    simp only [List.forall_mem_cons] at h
    obtain ⟨h0, h1, h2, hI⟩ := h
    have hn' : I.length % 3 = 0 := by
      simp only [List.length_cons] at hn
      omega
    simp only [List.map_cons, List.cons_append, packTriples, execAll_triple hh hp h0 h1 h2]
    cases hx : exec (.cpPush (packw (laneOf p0) (laneOf p1) (laneOf p2))) s with
    | next t =>
      obtain ⟨hpk, hhalt⟩ := exec_cpPush_keeps_pk hx
      rw [execAll_cons hx, execAll_cons hx]
      exact execAll_pkPush_pkEnd I t hI hn' (hhalt.trans hh) (hpk.trans hp)
    | fault f => simp [execAll, hx, andThen]
    | refused r => simp [execAll, hx, andThen]

/-- From an idle ENC path a sequence that `pack` accepts is emitted as CP emits its words. -/
theorem execAll_encode (hpack : pack I = .ok W) (hi : s.encIdle) (hh : s.encHalt = false) :
    execAll (I.map .pkPush ++ [.pkEnd]) s = .next (s.emitCode ((emittedCodes s.bypass W).map .w ++ [.eos])) := by
  obtain ⟨hp, hv, hc⟩ := hi
  obtain ⟨hlegal, hn, rfl⟩ := (pack_eq_ok_iff I W).mp hpack
  rw [execAll_pkPush_pkEnd I s hlegal hn hh hp, execAll_cpPush_cpEnd_of_idle _ hv hc hh]

/-- Settles O55: `encode` is `pack` followed by what CP emits. -/
theorem streamingEncodeEqualsBatch : Obligations.StreamingEncodeEqualsBatch := by
  intro I S s hi hh henc
  obtain ⟨W, hpack, rfl⟩ := map_eq_ok henc
  rw [execAll_encode hpack hi hh, State.emitCode, ← List.append_assoc]
  rfl

/-- The lanes that PK holds after a sequence of legal intensities: those after the last complete triple. -/
def heldLanes : List Nat → PkTriple
  | [] => .empty
  | [p0] => .one (laneOf p0)
  | [p0, p1] => .two (laneOf p0) (laneOf p1)
  | _ :: _ :: _ :: I => heldLanes I

theorem heldLanes_eq_empty_iff : ∀ I : List Nat, heldLanes I = .empty ↔ I.length % 3 = 0
  | [] => by simp [heldLanes]
  | [_] => by simp [heldLanes]
  | [_, _] => by simp [heldLanes]
  | _ :: _ :: _ :: I => by
    rw [heldLanes, heldLanes_eq_empty_iff I]
    simp only [List.length_cons]
    omega

/-- In bypass legal intensities emit the words of the complete triples and leave the rest in PK. -/
theorem execAll_pkPush_of_bypass : ∀ (I : List Nat) (s : State), (∀ v ∈ I, v ≤ 31) → s.encHalt = false →
    s.bypass = true → s.pk = .empty →
    execAll (I.map .pkPush) s = .next ((s.setPk (heldLanes I)).emitCode ((packTriples I).map .w))
  | [], s, _, _, _, hp => by simp [heldLanes, packTriples, setPk_of_empty hp]
  | [p0], s, h, hh, _, hp => by
    have h0 : p0 ≤ 31 := h p0 (by simp)
    exact (execAll_singleton _ s).trans ((exec_pkPush_first hh h0 hp).trans (by simp [packTriples, heldLanes]))
  | [p0, p1], s, h, hh, _, hp => by
    have h0 : p0 ≤ 31 := h p0 (by simp)
    have h1 : p1 ≤ 31 := h p1 (by simp)
    refine (execAll_cons (exec_pkPush_first hh h0 hp) _).trans ((execAll_singleton _ _).trans ?_)
    rw [exec_pkPush_second (s := s.setPk (.one (laneOf p0))) hh h1 rfl]
    simp [packTriples, heldLanes, State.setPk]
  | p0 :: p1 :: p2 :: I, s, h, hh, hb, hp => by
    simp only [List.forall_mem_cons] at h
    obtain ⟨h0, h1, h2, hI⟩ := h
    simp only [List.map_cons, execAll_triple hh hp h0 h1 h2]
    rw [execAll_cons (exec_cpPush_of_bypass _ hh hb)]
    refine (execAll_pkPush_of_bypass I _ hI (by exact hh) (by exact hb) (by exact hp)).trans ?_
    simp [packTriples, heldLanes, State.emitCode, State.setPk]

/-- The state after `RST.ALL 1`: in bypass, idle, with no flag set. -/
theorem exec_rstAll_bypass (s : State) : ∃ r, exec (.rstAll 1) s = .next r ∧
    r = { s with pk := .empty, cur := none, cnt := 0#8, dcPend := none, status := 0#3, cfg := 1#1 } :=
  ⟨_, exec_rstAll 1 s, resetDec_resetEnc 1 s⟩

/-- A sequence with an illegal intensity: the legal ones before the first illegal one, and the rest. -/
theorem exists_illegal_split (h : ∃ v ∈ I, 31 < v) :
    ∃ P v Q, I = P ++ v :: Q ∧ I.takeWhile legalIntensity = P ∧ (∀ p ∈ P, p ≤ 31) ∧ 31 < v := by
  induction I with
  | nil => simp at h
  | cons p I ih =>
    by_cases hp : p ≤ 31
    · obtain ⟨v, hv, hlt⟩ := h
      have hv' : v ∈ I := (List.mem_cons.mp hv).resolve_left (by omega)
      obtain ⟨P, u, Q, rfl, htake, hP, hu⟩ := ih ⟨v, hv', hlt⟩
      refine ⟨p :: P, u, Q, rfl, ?_, List.forall_mem_cons.mpr ⟨hp, hP⟩, hu⟩
      rw [List.takeWhile_cons_of_pos ((legalIntensity_iff p).mpr hp), htake]
    · have hlt : 31 < p := by omega
      refine ⟨[], p, I, rfl, ?_, by simp, hlt⟩
      rw [List.takeWhile_cons_of_neg (by simp [(legalIntensity_eq_false_iff p).mpr hlt])]

theorem takeWhile_legal (h : ∀ v ∈ I, v ≤ 31) : I.takeWhile legalIntensity = I :=
  List.takeWhile_eq_self_iff.mpr fun v hv => (legalIntensity_iff v).mpr (h v hv)

/-- An illegal intensity halts the path, and the rest of the sequence is ignored (R118, R243, R244). -/
theorem execAll_pkPush_illegal (h : ∃ v ∈ I, 31 < v) (hh : s.encHalt = false) (hb : s.bypass = true)
    (hp : s.pk = .empty) :
    ∃ p, execAll (I.map .pkPush ++ [.pkEnd]) s =
      .next (raise .invalidIntensity
        ((s.setPk p).emitCode ((packTriples (I.takeWhile legalIntensity)).map .w))) := by
  obtain ⟨P, v, Q, rfl, htake, hP, hv⟩ := exists_illegal_split h
  refine ⟨heldLanes P, ?_⟩
  rw [htake, List.map_append, List.append_assoc, execAll_append (execAll_pkPush_of_bypass P s hP hh hb hp), List.map_cons,
    List.cons_append,
    execAll_cons (exec_pkPush_of_illegal (s := (s.setPk (heldLanes P)).emitCode ((packTriples P).map .w)) hh hv)]
  refine execAll_of_encHalted (by simp [State.encHalt, State.errInt]) fun i hi => ?_
  simp only [List.mem_append, List.mem_map, List.mem_singleton] at hi
  rcases hi with ⟨q, -, rfl⟩ | rfl
  · exact ⟨rfl, rfl⟩
  · exact ⟨rfl, rfl⟩

/-- Legal intensities that leave a triple unfinished make `PK.END` fault (R114, R118). -/
theorem execAll_pkPush_badLength (h : ∀ v ∈ I, v ≤ 31) (hn : I.length % 3 ≠ 0) (hh : s.encHalt = false)
    (hb : s.bypass = true) (hp : s.pk = .empty) :
    execAll (I.map .pkPush ++ [.pkEnd]) s =
      .next (raise .invalidInputLength
        ((s.setPk (heldLanes I)).emitCode ((packTriples (I.takeWhile legalIntensity)).map .w))) := by
  have hheld : ((s.setPk (heldLanes I)).emitCode ((packTriples I).map .w)).pkN ≠ 0 := by
    rw [Ne, pkN_eq_zero_iff]
    exact fun he => hn ((heldLanes_eq_empty_iff I).mp he)
  rw [takeWhile_legal h, execAll_append (execAll_pkPush_of_bypass I s h hh hb hp), execAll_singleton]
  exact exec_pkEnd_of_partial hh hheld

/-- Settles O52: after the reset the path is idle and in bypass, so a legal sequence is emitted as its packed words; an
illegal intensity faults where it stands, and an unfinished triple at the END. -/
theorem streamingPackEqualsBatch : Obligations.StreamingPackEqualsBatch := by
  intro I s
  obtain ⟨r, hreset, hr⟩ := exec_rstAll_bypass s
  have hh : r.encHalt = false := by simp [hr, State.encHalt, State.errLen, State.errInt]
  have hb : r.bypass = true := by simp [hr, State.bypass]
  have hp : r.pk = .empty := by rw [hr]
  have hi : r.encIdle := by rw [hr]; exact ⟨rfl, rfl, rfl⟩
  simp only [List.cons_append, execAll_cons hreset]
  refine ⟨fun W hpack => ?_, fun f hpack => ?_⟩
  · rw [execAll_encode hpack hi hh, hb, hr, List.append_assoc]
    rfl
  · have hstatus : r.status = 0#3 := by rw [hr]
    have hout : r.codeOut = s.codeOut := by rw [hr]
    cases f with
    | invalidIntensity =>
      obtain ⟨p, hrun⟩ := execAll_pkPush_illegal ((pack_eq_invalidIntensity_iff I).mp hpack) hh hb hp
      refine ⟨_, hrun, ?_⟩
      simp [State.errInt, State.errLen, State.errTrunc, hstatus, hout]
    | invalidInputLength =>
      obtain ⟨hlegal, hn⟩ := (pack_eq_invalidInputLength_iff I).mp hpack
      refine ⟨_, execAll_pkPush_badLength hlegal hn hh hb hp, ?_⟩
      simp [State.errInt, State.errLen, State.errTrunc, hstatus, hout]
    | truncatedStream =>
      unfold pack at hpack
      split at hpack
      · split at hpack <;> cases hpack
      · cases hpack

/-! ### Codes in front of the Decoder (R169) -/

/-- From an idle DC a stream that decodes emits its words and leaves DC idle. -/
theorem execAll_dcPush (h : decodeStream S = .ok W) (hd : s.dcPend = none) (hh : s.decHalt = false) :
    execAll (S.map .dcPush) s = .next (s.emitWord (W.map .w)) := by
  induction S using codeStream_induction generalizing s W with
  | nil =>
    cases h
    exact congrArg _ (emitWord_nil s).symm
  | single c S hc ih =>
    rw [decodeStream_single hc] at h
    obtain ⟨V, hV, rfl⟩ := map_eq_ok h
    rw [List.map_cons, execAll_cons (exec_dcPush_escapePosition c hh hd), escapePosition_single hc]
    refine (ih hV (by exact hd) (by exact hh)).trans ?_
    simp [State.emitWord]
  | truncated c hc => simp [decodeStream_truncated hc] at h
  | run c v S hc ih =>
    rw [decodeStream_gen hc] at h
    obtain ⟨V, hV, rfl⟩ := map_eq_ok h
    have hoperand : exec (.dcPush v) (s.setDcPend (some (hi c))) =
        .next ((emitCopies v (hi c) (s.setDcPend (some (hi c)))).setDcPend none) :=
      decOp_orOperand_waiting (s := s.setDcPend (some (hi c))) v _ hh rfl
    have hidle : (emitCopies v (hi c) (s.setDcPend (some (hi c)))).setDcPend none =
        s.emitWord (List.replicate (hi c).toNat (.w v)) := by
      simp [emitCopies, State.emitWord, State.setDcPend, hd]
    rw [List.map_cons, List.map_cons, execAll_cons (exec_dcPush_escapePosition c hh hd), escapePosition_gen hc,
      execAll_cons hoperand, hidle]
    refine (ih hV (by exact hd) (by exact hh)).trans ?_
    simp [State.emitWord]

theorem execAll_decode (h : decodeStream S = .ok W) (hd : s.dcPend = none) (hh : s.decHalt = false) :
    execAll (S.map .dcPush ++ [.dcEnd]) s = .next (s.emitWord (W.map .w ++ [.eos])) := by
  rw [execAll_append (execAll_dcPush h hd hh), execAll_singleton,
    exec_dcEnd_idle (s := s.emitWord (W.map .w)) hh (by simp [State.dcWait, hd])]
  simp [State.emitWord]

/-- Settles O54: item by item; a stream that does not decode ends in the first code of a generic run, after codes that do
decode, and `DC.END` finds its operand missing. -/
theorem streamingDecodeEqualsBatch : Obligations.StreamingDecodeEqualsBatch := by
  refine fun S s hd hh => ⟨fun W h => ?_, fun f h => ?_⟩
  · rw [execAll_decode h hd hh, State.emitWord, ← List.append_assoc]
  · obtain ⟨-, X, c, W, rfl, hc, hX⟩ := decodeStream_error h
    refine ⟨X, c, W, rfl, hX, ?_⟩
    rw [List.map_append, List.append_assoc, execAll_append (execAll_dcPush hX hd hh), List.map_singleton,
      List.singleton_append, execAll_cons (exec_dcPush_escapePosition (s := s.emitWord (W.map .w)) c hh hd),
      escapePosition_gen hc, execAll_singleton]
    exact exec_dcEnd_waiting (s := (s.emitWord (W.map .w)).setDcPend (some (hi c))) hh rfl

/-! ### End to end (R223) -/

theorem decodeStream_emittedCodes (bypass : Bool) (hW : roundTripDomain W) :
    decodeStream (emittedCodes bypass W) = .ok W := by
  cases bypass
  · obtain ⟨hround, -⟩ := decodeInvertsCompress
    exact hround W hW
  · exact decodeStream_of_domain hW

theorem unpackAll_cons (w : Word) (W : List Word) : unpackAll (w :: W) = unpackAll [w] ++ unpackAll W := by
  simp [unpackAll]

theorem unpackAll_packTriples : ∀ I : List Nat, (∀ v ∈ I, v ≤ 31) → I.length % 3 = 0 → unpackAll (packTriples I) = I
  | [], _, _ => rfl
  | [_], _, hn => absurd hn (by simp)
  | [_, _], _, hn => absurd hn (by simp)
  | p0 :: p1 :: p2 :: I, h, hn => by
    simp only [List.forall_mem_cons] at h
    obtain ⟨h0, h1, h2, hI⟩ := h
    have hn' : I.length % 3 = 0 := by
      simp only [List.length_cons] at hn
      omega
    rw [packTriples, unpackAll_cons, unpackAll_packw, laneOf_toNat h0, laneOf_toNat h1, laneOf_toNat h2,
      unpackAll_packTriples I hI hn']
    rfl

/-- Settles O56: the codes that CP emits for packed words decode to them, and unpacking inverts `pack`. -/
theorem endToEndRoundTrip : Obligations.EndToEndRoundTrip := by
  intro I W s hpack hei heh hdi hdh
  obtain ⟨hlegal, hn, hW⟩ := (pack_eq_ok_iff I W).mp hpack
  refine ⟨emittedCodes s.bypass W, ?_, ?_, ?_⟩
  · rw [execAll_encode hpack hei heh, State.emitCode, ← List.append_assoc]
  · rw [execAll_decode (decodeStream_emittedCodes s.bypass (pack_domain hpack)) hdi hdh, State.emitWord,
      ← List.append_assoc]
  · rw [← hW, unpackAll_packTriples I hlegal hn]

end Sys2Proof.Proofs.Streaming
end

section
/-! SUPPORT. Stream positions (spec/10_state.md R30, spec/60_exceptions.md R241) and the runs of a path with their results
(spec/43_system.md R199), and the statements settled from these. -/

namespace Sys2Proof.Proofs.Runs

open Sys2Proof.Machine Sys2Proof.Proofs.Packer Sys2Proof.Proofs.Compressor Sys2Proof.Proofs.System
open Sys2Proof.Proofs.Exceptions Sys2Proof.Proofs.Frames Sys2Proof.Proofs.Streaming

variable {s t u : State} {i : Instr} {is : List Instr} {p : Positions}

/-! ### The position of PK (R22, R30, R241) -/

theorem afterAll_cons (p : Positions) (is : List Instr) (h : exec i s = .next t) :
    p.afterAll s (i :: is) = (p.after s i).afterAll t is :=
  ghostAll_cons _ is p h

theorem pkN_congr (h : t.pk = s.pk) : t.pkN = s.pkN := by
  rw [State.pkN, h]
  rfl

/-- An operation that is not PK's and does not reset the ENC path leaves the triple and PK's position. -/
theorem exec_keeps_pk (h : exec i s = .next t) (hpush : ∀ v, i ≠ .pkPush v) (hend : i ≠ .pkEnd)
    (hreset : ∀ b, i ≠ .rstEnc b ∧ i ≠ .rstAll b) : t.pk = s.pk ∧ (p.after s i).pk = p.pk := by
  have hoff (hon : i.onEnc = false) : t.pk = s.pk := congrArg EncView.pk (exec_keeps_encView h hon)
  cases i with
  | pkPush v => exact absurd rfl (hpush v)
  | pkEnd => exact absurd rfl hend
  | rstEnc b => exact absurd rfl (hreset b).1
  | rstAll b => exact absurd rfl (hreset b).2
  | cpPush w => exact ⟨(exec_cpPush_keeps_pk h).1, rfl⟩
  | pw p0 p1 p2 => exact ⟨(exec_cpPush_keeps_pk (w := packw p0 p1 p2) h).1, rfl⟩
  | cpEnd =>
    rcases encOp_eq_next h with ⟨-, rfl⟩ | ⟨-, h⟩
    · exact ⟨rfl, rfl⟩
    · obtain ⟨-, rfl⟩ := endWords_eq_next h
      exact ⟨rfl, rfl⟩
  | _ => exact ⟨hoff rfl, rfl⟩

/-- On a path that is not halted, before or after, an operation moves `pk_n` as it moves PK's position. -/
theorem exec_pkN (h : exec i s = .next t) (hs : s.encHalt = false) (ht : t.encHalt = false)
    (hp : s.pkN = p.pk % 3) : t.pkN = (p.after s i).pk % 3 := by
  by_cases hreset : ∃ b, i = .rstEnc b ∨ i = .rstAll b
  · obtain ⟨b, rfl | rfl⟩ := hreset
    · cases h; rfl
    · cases h; rfl
  by_cases hpush : ∃ v, i = .pkPush v
  · obtain ⟨v, rfl⟩ := hpush
    rcases execPkPush_eq_next h with ⟨hh, -⟩ | ⟨-, -, rfl⟩ | ⟨-, -, hn⟩
    · simp [hs] at hh
    · simp [State.encHalt, State.errInt] at ht
    · rw [hn, hp, Positions.after, Nat.mod_add_mod]
  by_cases hend : i = .pkEnd
  · subst hend
    rcases execPkEnd_eq_next h with ⟨hh, -⟩ | ⟨-, -, rfl⟩ | ⟨-, hpk, he⟩
    · simp [hs] at hh
    · simp [State.encHalt, State.errLen] at ht
    · obtain ⟨-, rfl⟩ := endWords_eq_next he
      exact (pkN_eq_zero_iff _).mpr hpk
  · obtain ⟨hpk, hpos⟩ := exec_keeps_pk (p := p) h (fun v hi => hpush ⟨v, hi⟩) hend
      fun b => ⟨fun hi => hreset ⟨b, .inl hi⟩, fun hi => hreset ⟨b, .inr hi⟩⟩
    rw [pkN_congr hpk, hpos, hp]

/-- `pk_n` is PK's position modulo 3 whenever the path is not halted; the reset that ends a halt zeroes both. -/
theorem exec_keeps_position (h : exec i s = .next t) (hp : s.encHalt = false → s.pkN = p.pk % 3)
    (ht : t.encHalt = false) : t.pkN = (p.after s i).pk % 3 := by
  cases hs : s.encHalt
  · exact exec_pkN h hs ht (hp hs)
  · obtain ⟨⟨b, rfl | rfl⟩, -⟩ := encReset_of_encHalt_ends h hs ht
    · cases h; rfl
    · cases h; rfl

theorem execAll_keeps_position (h : execAll is s = .next t) (hp : s.encHalt = false → s.pkN = p.pk % 3)
    (ht : t.encHalt = false) : t.pkN = (p.afterAll s is).pk % 3 := by
  induction is generalizing s p with
  | nil =>
    cases h
    exact hp ht
  | cons i is ih =>
    obtain ⟨u, hu, hs⟩ := execAll_cons_eq_next.mp h
    rw [afterAll_cons p is hu]
    exact ih hs (exec_keeps_position hu hp)

/-! ### The position of CP in bypass (R30, R54) -/

/-- In bypass CP consumes a word of the row `PW` exactly when it emits one. -/
theorem exec_pw_consumes {p0 p1 p2 : Lane} (hb : s.bypass = true) (h : exec (.pw p0 p1 p2) s = .next t) :
    (p.after s (.pw p0 p1 p2)).cp + s.codeOut.length = p.cp + t.codeOut.length := by
  cases hh : s.encHalt
  · have ht : exec (.pw p0 p1 p2) s = .next (s.emitCode [.w (packw p0 p1 p2)]) := exec_cpPush_of_bypass _ hh hb
    cases ht.symm.trans h
    simp [Positions.after, hh]
    omega
  · cases (exec_of_encHalted hh rfl rfl).symm.trans h
    simp [Positions.after, hh]

/-- In bypass CP consumes a word of `PK.PUSH` exactly when it emits one: when the link fires (R54). -/
theorem exec_pkPush_consumes {v : Nat} (hb : s.bypass = true) (h : exec (.pkPush v) s = .next t) :
    (p.after s (.pkPush v)).cp + s.codeOut.length = p.cp + t.codeOut.length := by
  cases hh : s.encHalt
  · by_cases hv : v ≤ 31
    · cases hp : s.pk with
      | empty =>
        cases (exec_pkPush_first hh hv hp).symm.trans h
        simp [Positions.after, linkFires, State.pkN, hp]
      | one b0 =>
        cases (exec_pkPush_second hh hv hp).symm.trans h
        simp [Positions.after, linkFires, State.pkN, hp]
      | two b0 b1 =>
        have hlegal : legalIntensity v = true := (legalIntensity_iff v).mpr hv
        cases ((exec_pkPush_third hh hv hp).trans (exec_cpPush_of_bypass (s := s.setPk .empty) _ hh hb)).symm.trans h
        simp [Positions.after, linkFires, State.pkN, hh, hlegal, hp]
        omega
    · have hlegal : legalIntensity v = false := (legalIntensity_eq_false_iff v).mpr (by omega)
      cases (exec_pkPush_of_illegal hh (by omega)).symm.trans h
      simp [Positions.after, linkFires, hlegal]
  · cases (exec_of_encHalted hh rfl rfl).symm.trans h
    simp [Positions.after, linkFires, hh]

theorem exec_push_consumes (hb : s.bypass = true) (hr : encRole i = .push) (hne : ∀ w, i ≠ .cpPush w)
    (h : exec i s = .next t) : (p.after s i).cp + s.codeOut.length = p.cp + t.codeOut.length := by
  cases i with
  | cpPush w => exact absurd rfl (hne w)
  | pw p0 p1 p2 => exact exec_pw_consumes hb h
  | pkPush v => exact exec_pkPush_consumes hb h
  | _ => contradiction

/-- An operation that is none of the ENC path's runs leaves CP's position. -/
theorem after_cp_of_other (p : Positions) (s : State) (hr : encRole i = .other) : (p.after s i).cp = p.cp := by
  cases i with
  | pw | pkPush | pkEnd | cpPush | cpEnd | rstEnc | rstAll => contradiction
  | _ => rfl

theorem execAll_pushes_consume (hb : s.bypass = true)
    (hr : ∀ i ∈ is, (encRole i = .push ∨ encRole i = .other) ∧ ∀ w, i ≠ .cpPush w) (h : execAll is s = .next t) :
    (p.afterAll s is).cp + s.codeOut.length = p.cp + t.codeOut.length := by
  induction is generalizing s p with
  | nil =>
    cases h
    rfl
  | cons i is ih =>
    obtain ⟨⟨hrole, hne⟩, hrest⟩ := List.forall_mem_cons.mp hr
    obtain ⟨u, hu, hs⟩ := execAll_cons_eq_next.mp h
    have hcfg : u.cfg = s.cfg := exec_keeps_cfg (fun b => ⟨by rintro rfl; simp [encRole] at hrole,
      by rintro rfl; simp [encRole] at hrole⟩) hu
    have hub : u.bypass = true := by rw [State.bypass, hcfg]; exact hb
    have hone : (p.after s i).cp + s.codeOut.length = p.cp + u.codeOut.length := by
      rcases hrole with hpush | hother
      · exact exec_push_consumes hb hpush hne hu
      · rw [after_cp_of_other p s hother, encOther_emits hother hu]
    have htail := ih (p := p.after s i) hub hrest hs
    rw [afterAll_cons p is hu]
    omega

/-- A `PK.END` that is ignored or faults ends PK's sequence and not CP's. -/
theorem pkEnd_without_link (p : Positions) (h : s.encHalt = true ∨ s.pkN ≠ 0) :
    p.after s .pkEnd = { p with pk := 0 } ∧ ∀ t, exec .pkEnd s = .next t → t.codeOut = s.codeOut := by
  have hlink : linkEnds s = false := by
    rcases h with h | h
    · simp [linkEnds, h]
    · simp [linkEnds, h]
  refine ⟨by simp [Positions.after, hlink], fun t ht => ?_⟩
  rcases execPkEnd_eq_next ht with ⟨-, rfl⟩ | ⟨-, -, rfl⟩ | ⟨hh, hp, -⟩
  · rfl
  · rfl
  · simp [linkEnds, hh, (pkN_eq_zero_iff s).mpr hp] at hlink

/-- Settles O57: one step of each position, along the sequence. -/
theorem triplePositionCountsModThree : Obligations.TriplePositionCountsModThree :=
  ⟨fun _ _ _ _ _ hp h ht => execAll_keeps_position h (fun _ => hp) ht,
    fun _ _ _ _ hb hr h => execAll_pushes_consume hb hr h, fun _ p => pkEnd_without_link p⟩

/-! ### Runs and their results (R199, U18) -/

theorem begin_status_of_halt (xs ys : List OutToken) (halted : Bool) :
    (RunTrack.begin xs).status ys halted = if halted then .endedBadly else .notEnded := by
  cases halted <;> rfl

/-- A run that an END has ended well has as its result what was open before it and what it emitted. -/
theorem ended_run_result (xs : List OutToken) (ws : List Word) :
    (RunTrack.mk xs.length true).status (xs ++ ws.map .w ++ [.eos]) false = .endedWell (openPayloads xs ++ ws) ∧
    (RunTrack.mk xs.length true).emitted (xs ++ ws.map .w ++ [.eos]) = ws := by
  refine ⟨congrArg RunStatus.endedWell (lastSequence_closed xs ws), ?_⟩
  rw [List.append_assoc, RunTrack.emitted_append, payloads_append, payloads_data]
  exact List.append_nil ws

theorem encRun_of_pushes (hr : ∀ i ∈ is, encRole i = .push ∨ encRole i = .other) (h : execAll is s = .next t) :
    ((RunTrack.begin s.codeOut).encAfterAll s is).encStatus t = (if t.encHalt then .endedBadly else .notEnded) := by
  rw [(encPushes is hr h _ rfl).1]
  exact begin_status_of_halt _ _ _

/-- The END after pushes ends their run, well or badly. -/
theorem encRun_of_finish {e : Instr} (hr : ∀ i ∈ is, encRole i = .push ∨ encRole i = .other)
    (h : execAll is s = .next t) (he : encRole e = .finish) (hu : exec e t = .next u) :
    (u.encHalt = true → ((RunTrack.begin s.codeOut).encAfterAll s (is ++ [e])).encStatus u = .endedBadly) ∧
    (u.encHalt = false → ∃ ws, u.codeOut = s.codeOut ++ ws.map .w ++ [.eos] ∧
      ((RunTrack.begin s.codeOut).encAfterAll s (is ++ [e])).encStatus u = .endedWell (openPayloads s.codeOut ++ ws) ∧
      ((RunTrack.begin s.codeOut).encAfterAll s (is ++ [e])).emitted u.codeOut = ws) := by
  obtain ⟨hrun, ws, hws⟩ := encPushes is hr h (RunTrack.begin s.codeOut) rfl
  rw [RunTrack.encAfterAll_snoc _ h hu, hrun, he, RunTrack.next_finish, RunTrack.current_begin, RunTrack.encStatus]
  refine ⟨fun hh => by rw [hh]; rfl, fun hh => ?_⟩
  rcases encFinish_emits he hu with hbad | ⟨vs, hvs⟩
  · simp [hh] at hbad
  · have hout : u.codeOut = s.codeOut ++ (ws ++ vs).map .w ++ [.eos] := by
      rw [hvs, hws, List.map_append, List.append_assoc s.codeOut]
    rw [hh, hout]
    exact ⟨ws ++ vs, rfl, ended_run_result s.codeOut (ws ++ vs)⟩

theorem decRun_of_pushes (hr : ∀ i ∈ is, decRole i = .push ∨ decRole i = .other) (h : execAll is s = .next t) :
    ((RunTrack.begin s.wordOut).decAfterAll s is).decStatus t = (if t.decHalt then .endedBadly else .notEnded) := by
  rw [(decPushes is hr h _ rfl).1]
  exact begin_status_of_halt _ _ _

/-- `DC.END` after pushes ends their run, well or badly. -/
theorem decRun_of_finish {e : Instr} (hr : ∀ i ∈ is, decRole i = .push ∨ decRole i = .other)
    (h : execAll is s = .next t) (he : decRole e = .finish) (hu : exec e t = .next u) :
    (u.decHalt = true → ((RunTrack.begin s.wordOut).decAfterAll s (is ++ [e])).decStatus u = .endedBadly) ∧
    (u.decHalt = false → ∃ ws, u.wordOut = s.wordOut ++ ws.map .w ++ [.eos] ∧
      ((RunTrack.begin s.wordOut).decAfterAll s (is ++ [e])).decStatus u = .endedWell (openPayloads s.wordOut ++ ws) ∧
      ((RunTrack.begin s.wordOut).decAfterAll s (is ++ [e])).emitted u.wordOut = ws) := by
  obtain ⟨hrun, ws, hws⟩ := decPushes is hr h (RunTrack.begin s.wordOut) rfl
  rw [RunTrack.decAfterAll_snoc _ h hu, hrun, he, RunTrack.next_finish, RunTrack.current_begin, RunTrack.decStatus]
  refine ⟨fun hh => by rw [hh]; rfl, fun hh => ?_⟩
  rcases decFinish_emits he hu with hbad | hout
  · simp [hh] at hbad
  · rw [hh, hout, hws]
    exact ⟨ws, rfl, ended_run_result s.wordOut ws⟩

/-- A run that has just begun on a path that is not halted has not ended. -/
theorem next_begins {r : RunTrack} {role : RunRole} (xs ys : List OutToken)
    (h : role = .reset ∨ (r.ended = true ∧ role = .push)) : (r.next role xs ys false).status ys false = .notEnded := by
  rcases h with rfl | ⟨hended, rfl⟩
  · rfl
  · rw [RunTrack.next_push, RunTrack.current, if_pos hended]
    rfl

theorem encHalt_of_encReset (hr : encRole i = .reset) (h : exec i s = .next t) : t.encHalt = false := by
  cases i with
  | rstEnc b => cases h; exact encHalt_resetEnc b s
  | rstAll b => cases h; exact (encHalt_resetDec _).trans (encHalt_resetEnc b s)
  | _ => contradiction

theorem decHalt_of_decReset (hr : decRole i = .reset) (h : exec i s = .next t) : t.decHalt = false := by
  cases i with
  | rstDec => cases h; exact decHalt_resetDec s
  | rstAll b => cases h; exact decHalt_resetDec _
  | _ => contradiction

theorem encRun_begins {r : RunTrack} (h : exec i s = .next t)
    (hi : encRole i = .reset ∨ (r.ended = true ∧ s.encHalt = false ∧ encRole i = .push ∧ t.encHalt = false)) :
    (r.encAfterAll s [i]).encStatus t = .notEnded := by
  have hh : t.encHalt = false := hi.elim (fun hr => encHalt_of_encReset hr h) fun ⟨_, _, _, hh⟩ => hh
  rw [r.encAfterAll_cons [] h, RunTrack.encStatus, hh]
  exact next_begins _ _ (hi.imp_right fun ⟨hended, _, hpush, _⟩ => ⟨hended, hpush⟩)

theorem decRun_begins {r : RunTrack} (h : exec i s = .next t)
    (hi : decRole i = .reset ∨ (r.ended = true ∧ s.decHalt = false ∧ decRole i = .push ∧ t.decHalt = false)) :
    (r.decAfterAll s [i]).decStatus t = .notEnded := by
  have hh : t.decHalt = false := hi.elim (fun hr => decHalt_of_decReset hr h) fun ⟨_, _, _, hh⟩ => hh
  rw [r.decAfterAll_cons [] h, RunTrack.decStatus, hh]
  exact next_begins _ _ (hi.imp_right fun ⟨hended, _, hpush, _⟩ => ⟨hended, hpush⟩)

/-- Settles O58: pushes leave the run open, an END ends it by its flag, and a reset or a push after a good END begins one. -/
theorem runsEndWithResultOrNone : Obligations.RunsEndWithResultOrNone :=
  ⟨fun _ _ _ hr h => ⟨encRun_of_pushes hr h, fun _ _ => encRun_of_finish hr h⟩,
    fun _ _ _ hr h => ⟨decRun_of_pushes hr h, fun _ _ => decRun_of_finish hr h⟩,
    fun _ _ _ _ h => ⟨encRun_begins h, decRun_begins h⟩⟩

end Sys2Proof.Proofs.Runs
end
